-- ==== Sys2Proof/Word.lean ====
section
/-!
DEFINITION. The word types of KSC (00_scope.md R7): unsigned values whose bit 0 is the least significant.
-/

namespace Sys2Proof

/-- An unsigned 8-bit value (R7). -/
abbrev Byte := BitVec 8

/-- An unsigned 32-bit value, the width of every register file element, lane and table word (R7). -/
abbrev Word := BitVec 32

/-- A byte position in a keystream: an unsigned 64-bit value (R7). -/
abbrev Pos := BitVec 64

end Sys2Proof
end

