-- ==== Sys2Proof/Machine/Bits.lean ====
section
/-!
DEFINITION. Rotations, shifts and byte order (00_scope.md R8 to R11, 20_memory.md R63). Addition on words is BitVec addition,
which wraps modulo 2^32 (R8).
-/

namespace Sys2Proof.Machine

/-- Left rotation by a constant `0 < n < 32` (R9). -/
def rotl (x : Word) (n : Nat) : Word := (x <<< n) ||| (x >>> (32 - n))

/-- Right rotation by a constant `0 < n < 32` (R9). -/
def rotr (x : Word) (n : Nat) : Word := rotl x (32 - n)

/-- Logical right shift, which fills with zeros (R9). -/
def shr (x : Word) (n : Nat) : Word := x >>> n

/-- Four bytes packed into a word, first byte least significant (R10). -/
def le32 (b0 b1 b2 b3 : Byte) : Word :=
  BitVec.ofNat 32 (b0.toNat + 2 ^ 8 * b1.toNat + 2 ^ 16 * b2.toNat + 2 ^ 24 * b3.toNat)

/-- Byte lane `k` of a word, lane 0 the least significant byte (R11). -/
def byteOfWord (w : Word) (k : Nat) : Byte := (shr w (8 * k) &&& 0xff#32).setWidth 8

/-- The unsigned value of bytes in stream order, least significant byte first (30_encoding.md R98 b, c). -/
def leValue : List Byte → Nat
  | [] => 0
  | b :: bs => b.toNat + 2 ^ 8 * leValue bs

/-- The `k` low bytes of a number, least significant byte first (R63 f). -/
def leBytes : Nat → Nat → List Byte
  | 0, _ => []
  | k + 1, v => BitVec.ofNat 8 v :: leBytes k (v / 2 ^ 8)

end Sys2Proof.Machine
end

