-- ==== Sys2Proof/Config.lean ====
section
/-!
DEFINITION. What an implementation of KSC fixes (00_scope.md R6): the three algorithms, the one parameter the spec leaves
open, and the free value for an access no rule reaches.
-/

namespace Sys2Proof

/-- The two add-rotate-xor ciphers, which share one block function (42_arx_family.md R172). -/
inductive Arx where
  | salsa20
  | chacha20
  deriving DecidableEq, Repr

/-- The three algorithms in scope (00_scope.md R2). -/
inductive Cipher where
  | arx (a : Arx)
  | hc256
  deriving DecidableEq, Repr

/-- One less than `HC_BLOCK_WORDS`. It has no body: R6 leaves the parameter open (92_eei_decisions.md D13). Log 3. -/
opaque Config.hcBlockWordsPred : Nat

/-- `HC_BLOCK_WORDS`, an integer >= 1 (R6). Log 3. -/
def Config.hcBlockWords : Nat := Config.hcBlockWordsPred + 1

/-- What a block word beyond the words `B` holds reads as. R61 rules the access out, so no rule gives it a value, and the
model fixes none. Log 5. -/
opaque Config.absentWord : Nat → Word

end Sys2Proof
end

