-- ==== Sys2Proof/Machine/RegFile.lean ====
section
/-!
DEFINITION. A register file or word memory of fixed size (10_state.md R30, R31, R33, R35): `n` elements, each named by an
index below `n`, so that no access is out of range (20_memory.md R61). Equal contents are equal data. Log 6.
-/

namespace Sys2Proof.Machine

/-- `n` elements, element 0 first. -/
structure RegFile (α : Type) (n : Nat) where
  elems : List α
  size : elems.length = n
  deriving DecidableEq, Repr

/-- Every element holds `v`. -/
def RegFile.fill {α : Type} (n : Nat) (v : α) : RegFile α n := ⟨List.replicate n v, List.length_replicate⟩

/-- The file whose element `i` is `f i`. -/
def RegFile.ofFn {α : Type} {n : Nat} (f : Fin n → α) : RegFile α n := ⟨List.ofFn f, List.length_ofFn⟩

/-- `MemRead` (20_memory.md R62): the element at an index. -/
def RegFile.read {α : Type} {n : Nat} (f : RegFile α n) (i : Fin n) : α := f.elems.get (i.cast f.size.symm)

/-- `MemWrite` (20_memory.md R62): the element at an index replaced. -/
def RegFile.write {α : Type} {n : Nat} (f : RegFile α n) (i : Fin n) (v : α) : RegFile α n :=
  ⟨f.elems.set i.val v, List.length_set.trans f.size⟩

end Sys2Proof.Machine
end

