-- ==== Sys2Proof/Machine/State.lean ====
section
/-!
DEFINITION. The state of the core (10_state.md R21 to R36), its value at reset (R40), and the reasons a step can stop.
Registers carry the manual's names.
-/

namespace Sys2Proof.Machine

/-- Sixteen 32-bit lanes (42_arx_family.md R166). -/
abbrev Lanes := RegFile Word 16

/-- A table of 1024 words (10_state.md R35). -/
abbrev Table := RegFile Word 1024

/-- HC-256's TableState (00_scope.md, glossary): "two 1024-word arrays plus a cursor in [0,2048)" (10_state.md R29, R35). -/
structure TableState where
  P : Table
  Q : Table
  IDX : BitVec 11
  deriving DecidableEq, Repr

/-- The state of one core. -/
structure State where
  /-- The algorithm; `none` is `NONE` (R22). -/
  ALG : Option Cipher
  /-- 1 after a successful INIT (R23). -/
  READY : Bool
  /-- 1 after an illegal opcode, until reset (R24). -/
  HALTED : Bool
  /-- Index of the block in `B` (R25). -/
  BLOCKINDEX : BitVec 64
  /-- Byte offset in `B` of the next keystream byte (R27). -/
  BLOCKOFFSET : Nat
  /-- The key words (R30). -/
  K : RegFile Word 8
  /-- The IV bytes (R31). -/
  IVB : RegFile Byte 32
  /-- The block buffer, word 0 first (R32). Log 4. -/
  B : List Word
  /-- Scratch lanes the rounds work on (R33). -/
  X : Lanes
  /-- Scratch lanes that hold the `initBlock` value (R33). -/
  S : Lanes
  /-- HC-256's tables and cursor: `P`, `Q` (R35) and `IDX` (R29). -/
  tab : TableState
  /-- HC-256's scratch memory (R35). -/
  W : RegFile Word 2660
  /-- The command-stream bytes the host has appended and the core has not consumed (30_encoding.md R90). Log 11. -/
  cmd : List Byte
  /-- The command cursor (R26). -/
  cc : Nat
  /-- The response-stream bytes the core has appended and the host has not removed (30_encoding.md R90). Log 11. -/
  rsp : List Byte
  /-- The response cursor (R26). -/
  rc : Nat
  /-- The reset input (30_encoding.md R90): asserted by the host and not yet taken. Log 2. -/
  RESET : Bool
  deriving DecidableEq, Repr

/-- Every piece of state after reset (R40): `ALG = NONE`, everything else zero or empty. -/
def State.reset : State where
  ALG := none
  READY := false
  HALTED := false
  BLOCKINDEX := 0
  BLOCKOFFSET := 0
  K := RegFile.fill 8 0
  IVB := RegFile.fill 32 0
  B := List.replicate 16 0
  X := RegFile.fill 16 0
  S := RegFile.fill 16 0
  tab := { P := RegFile.fill 1024 0, Q := RegFile.fill 1024 0, IDX := 0 }
  W := RegFile.fill 2660 0
  cmd := []
  cc := 0
  rsp := []
  rc := 0
  RESET := false

/-- The status a response begins with (30_encoding.md R101). -/
inductive Status where
  | ok
  | invalidKeyLength
  | invalidIVLength
  | unsupportedSeek
  | notConstructed
  | notReady
  | unknownAlgorithm
  | illegalCommand
  deriving DecidableEq, Repr

/-- Why the core has no step to take (70_reset_and_hazards.md R284). Raised by `step` alone, never by a command. In each case
the state is what it was: the core has consumed, changed and answered nothing, so the run can go on from that state when the
host acts. Log 1. -/
inductive Fault where
  /-- `HALTED = 1`: the core consumes and answers nothing until reset (30_encoding.md R104). Safe. -/
  | halted
  /-- The command stream is empty (60_exceptions.md R260, R284). Safe. -/
  | commandStreamEmpty
  /-- The command stream holds only part of a command (30_encoding.md R102). Safe. -/
  | commandIncomplete
  deriving DecidableEq, Repr

/-- Why a command has no meaning. No command is refused in this model. -/
inductive Refusal where
  /-- The command of that mnemonic is not modelled. Raised by no arm of `exec`. Safe. -/
  | notModelled (mnemonic : String)
  deriving DecidableEq, Repr

end Sys2Proof.Machine
end

