-- ==== Sys2Proof/Machine/Ops.lean ====
section
/-!
DEFINITION. The operations every command shares: the sizes that depend on the algorithm, the response stream, raising an
error, release and reset.
-/

namespace Sys2Proof.Machine

/-- `IV_BYTES(ALG)` (00_scope.md R6). -/
def ivBytes : Cipher → Nat
  | .arx _ => 8
  | .hc256 => 32

/-- `BLOCK_WORDS(ALG)`, where `n` is `HC_BLOCK_WORDS` (00_scope.md R6). -/
def blockWords (n : Nat) : Cipher → Nat
  | .arx _ => 16
  | .hc256 => n

/-- `BLOCK_BYTES(ALG)` (00_scope.md R6). -/
def blockBytes (n : Nat) (c : Cipher) : Nat := 4 * blockWords n c

/-- The block buffer with every word zero: `BLOCK_WORDS(ALG)` words (10_state.md R32), and sixteen for `NONE`, which has no
`BLOCK_WORDS` (log 4). -/
def zeroBlock (n : Nat) : Option Cipher → List Word
  | none => List.replicate 16 0
  | some c => List.replicate (blockWords n c) 0

/-- The code of a status (30_encoding.md R101). -/
def statusCode : Status → Byte
  | .ok => 0x00
  | .invalidKeyLength => 0x01
  | .invalidIVLength => 0x02
  | .unsupportedSeek => 0x03
  | .notConstructed => 0x10
  | .notReady => 0x11
  | .unknownAlgorithm => 0x12
  | .illegalCommand => 0xff

/-- `RspWrite(s)`: append bytes to the response stream (30_encoding.md R90, R100) and advance `rc` (10_state.md R26). -/
def rspWrite (bs : List Byte) (s : State) : State := { s with rsp := s.rsp ++ bs, rc := s.rc + bs.length }

/-- `raise E` (60_exceptions.md R246): one status byte, and nothing else of the state changes. There is nothing to return
from (R251): the next step decodes the next command. -/
def raise (e : Status) (s : State) : State := rspWrite [statusCode e] s

/-- Consume the bytes of the command at the head of the stream: `rest` is what follows it, `length` how many bytes it has
(30_encoding.md R91, 10_state.md R26). -/
def consume (length : Nat) (rest : List Byte) (s : State) : State := { s with cmd := rest, cc := s.cc + length }

/-- `release()` (40_keystream_engine.md R121): the engine's every register and memory to zero, `ALG` to `NONE`, `READY` to 0;
`HALTED`, the cursors and the streams are not touched. `B` takes the size it has for `NONE` (log 4). -/
def release (s : State) : State :=
  { s with
    READY := false, ALG := none, BLOCKINDEX := 0, BLOCKOFFSET := 0
    K := RegFile.fill 8 0, IVB := RegFile.fill 32 0, B := List.replicate 16 0
    X := RegFile.fill 16 0, S := RegFile.fill 16 0
    tab := { P := RegFile.fill 1024 0, Q := RegFile.fill 1024 0, IDX := 0 }
    W := RegFile.fill 2660 0 }

/-- `ALG <- alg` on a released engine (40_keystream_engine.md R120): the zeroed block buffer takes the size of the algorithm
(10_state.md R32). -/
def selectAlg (n : Nat) (alg : Option Cipher) (s : State) : State := { s with ALG := alg, B := zeroBlock n alg }

/-- The reset event (70_reset_and_hazards.md R280): streams emptied, `HALTED` and the cursors cleared, `release()`. The
request is taken, so the input reads as released. -/
def takeReset (s : State) : State :=
  release { s with cmd := [], rsp := [], HALTED := false, cc := 0, rc := 0, RESET := false }

/-- A byte that selects no command (30_encoding.md R104, 60_exceptions.md R248): `IllegalCommand` and `HALTED`, after the byte
is consumed. -/
def illegalCommand (s : State) : State := { raise .illegalCommand s with HALTED := true }

end Sys2Proof.Machine
end

