-- ==== Sys2Proof/Machine/Flags.lean ====
section
/-!
DEFINITION. The flag the commands test and set (10_state.md R23, R34: `READY` and `HALTED` are the only flags; `HALTED` is
tested by fetch and set by `illegalCommand`).
-/

namespace Sys2Proof.Machine

/-- `READY <- 1` (40_keystream_engine.md R122). -/
def setReady (s : State) : State := { s with READY := true }

/-- The cipher of a ready engine. `none` where a command reports `NotReady`: `READY = 0`, and also `ALG = NONE`, for "an
unconstructed engine is not ready" (60_exceptions.md R245). -/
def readyCipher (s : State) : Option Cipher := if s.READY then s.ALG else none

end Sys2Proof.Machine
end

