-- ==== Sys2Proof/Machine/Operands.lean ====
section
/-!
DEFINITION. What operands become inside a command: algorithm codes, key and IV bytes as words, positions as block index and
offset (00_scope.md R10, R12; 10_state.md R22, R30, R31; 30_encoding.md R98).
-/

namespace Sys2Proof.Machine

/-- The algorithm of a 2-bit code, high bit first: 0 `NONE`, 1 `SALSA20`, 2 `CHACHA20`, 3 `HC256` (10_state.md R22). -/
def algOfCode (code : BitVec 2) : Option Cipher :=
  match code.getLsbD 1, code.getLsbD 0 with
  | false, false => none
  | false, true => some (.arx .salsa20)
  | true, false => some (.arx .chacha20)
  | true, true => some .hc256

/-- Word `i` of `n` bytes, `4 * words = n`, packed least significant byte first: element `i` of `words_le` (R10). -/
def packedWord {n : Nat} (bytes : RegFile Byte n) (i : Nat) (h : 4 * i + 3 < n) : Word :=
  le32 (bytes.read ⟨4 * i, by omega⟩) (bytes.read ⟨4 * i + 1, by omega⟩)
    (bytes.read ⟨4 * i + 2, by omega⟩) (bytes.read ⟨4 * i + 3, h⟩)

/-- `K` from 32 key bytes (10_state.md R30). -/
def keyWords (bytes : RegFile Byte 32) : RegFile Word 8 :=
  RegFile.ofFn fun i => packedWord bytes i.val (by omega)

/-- `V[i]`, the word view of `IVB` (10_state.md R31). -/
def ivWord (iv : RegFile Byte 32) (i : Fin 8) : Word := packedWord iv i.val (by omega)

/-- `IVB[i] <- iv[i]` for the bytes given; the other bytes keep their value (40_keystream_engine.md R122). -/
def storeIV (given : List Byte) (iv : RegFile Byte 32) : RegFile Byte 32 :=
  RegFile.ofFn fun i => given.getD i.val (iv.read i)

/-- `BLOCKINDEX` and `BLOCKOFFSET` set to a position (00_scope.md R12, 40_keystream_engine.md R122). -/
def setPosition (n : Nat) (c : Cipher) (pos : Pos) (s : State) : State :=
  { s with
    BLOCKINDEX := BitVec.ofNat 64 (pos.toNat / blockBytes n c)
    BLOCKOFFSET := pos.toNat % blockBytes n c }

/-- `POSITION`, the view `(BLOCKINDEX * BLOCK_BYTES + BLOCKOFFSET) mod 2^64` (10_state.md R28). -/
def positionView (n : Nat) (c : Cipher) (s : State) : Pos :=
  BitVec.ofNat 64 (s.BLOCKINDEX.toNat * blockBytes n c + s.BLOCKOFFSET)

/-- Keystream byte `o` of a block buffer (00_scope.md R11). A word the buffer does not hold is a free value (log 5). -/
def blockByte (block : List Word) (o : Nat) : Byte :=
  byteOfWord (block.getD (o / 4) (Config.absentWord (o / 4))) (o % 4)

end Sys2Proof.Machine
end

