-- ==== Sys2Proof/Machine/Arx.lean ====
section
/-!
DEFINITION. The block function the two add-rotate-xor ciphers share (42_arx_family.md), with the lane layout, quarter-round
and quadruples of each (43_salsa20.md, 44_chacha20.md).
-/

namespace Sys2Proof.Machine

/-- `CONST[0..3]`, "expand 32-byte k" packed as four words (R167). -/
def const0 : Word := 0x61707865
/-- `CONST[1]` (R167). -/
def const1 : Word := 0x3320646e
/-- `CONST[2]` (R167). -/
def const2 : Word := 0x79622d32
/-- `CONST[3]` (R167). -/
def const3 : Word := 0x6b206574

/-- The low half of the block counter (R168). -/
def counterLow (index : BitVec 64) : Word := index.extractLsb' 0 32

/-- The high half of the block counter (R168). -/
def counterHigh (index : BitVec 64) : Word := index.extractLsb' 32 32

/-- Salsa20's lane layout (43_salsa20.md R180). -/
def salsaLayout (k : RegFile Word 8) (iv : RegFile Byte 32) (index : BitVec 64) : Lanes where
  elems :=
    [const0, k.read 0, k.read 1, k.read 2,
     k.read 3, const1, ivWord iv 0, ivWord iv 1,
     counterLow index, counterHigh index, const2, k.read 4,
     k.read 5, k.read 6, k.read 7, const3]
  size := rfl

/-- ChaCha20's lane layout (44_chacha20.md R195). -/
def chachaLayout (k : RegFile Word 8) (iv : RegFile Byte 32) (index : BitVec 64) : Lanes where
  elems :=
    [const0, const1, const2, const3,
     k.read 0, k.read 1, k.read 2, k.read 3,
     k.read 4, k.read 5, k.read 6, k.read 7,
     counterLow index, counterHigh index, ivWord iv 0, ivWord iv 1]
  size := rfl

/-- Four lane numbers (a, b, c, d). -/
structure Quad where
  a : Fin 16
  b : Fin 16
  c : Fin 16
  d : Fin 16
  deriving DecidableEq, Repr

/-- One Salsa20 step `X[z] <- X[z] ^ rotl(X[x] + X[y], r)` (43_salsa20.md R181). -/
def salsaStep (z x y : Fin 16) (r : Nat) (l : Lanes) : Lanes :=
  l.write z (l.read z ^^^ rotl (l.read x + l.read y) r)

/-- `salsaQR` (43_salsa20.md R181). The lanes each step reads are from general knowledge (log 7). -/
def salsaQR (q : Quad) (l : Lanes) : Lanes :=
  let l := salsaStep q.b q.a q.d 7 l
  let l := salsaStep q.c q.b q.a 9 l
  let l := salsaStep q.d q.c q.b 13 l
  salsaStep q.a q.d q.c 18 l

/-- One third of a ChaCha20 line: `X[x] += X[y]; X[z] ^= X[x]; X[z] <- rotl(X[z], r)` (44_chacha20.md R196). -/
def chachaStep (x y z : Fin 16) (r : Nat) (l : Lanes) : Lanes :=
  let l := l.write x (l.read x + l.read y)
  let l := l.write z (l.read z ^^^ l.read x)
  l.write z (rotl (l.read z) r)

/-- `chachaQR` (44_chacha20.md R196). -/
def chachaQR (q : Quad) (l : Lanes) : Lanes :=
  let l := chachaStep q.a q.b q.d 16 l
  let l := chachaStep q.c q.d q.b 12 l
  let l := chachaStep q.a q.b q.d 8 l
  chachaStep q.c q.d q.b 7 l

/-- The four column quadruples of Salsa20 (43_salsa20.md R182). Log 7. -/
def salsaColumns : List Quad := [⟨0, 4, 8, 12⟩, ⟨5, 9, 13, 1⟩, ⟨10, 14, 2, 6⟩, ⟨15, 3, 7, 11⟩]

/-- The four row quadruples of Salsa20 (43_salsa20.md R183). Log 7. -/
def salsaRows : List Quad := [⟨0, 1, 2, 3⟩, ⟨5, 6, 7, 4⟩, ⟨10, 11, 8, 9⟩, ⟨15, 12, 13, 14⟩]

/-- The four column quadruples of ChaCha20 (44_chacha20.md R197). -/
def chachaColumns : List Quad := [⟨0, 4, 8, 12⟩, ⟨1, 5, 9, 13⟩, ⟨2, 6, 10, 14⟩, ⟨3, 7, 11, 15⟩]

/-- The four diagonal quadruples of ChaCha20 (44_chacha20.md R198). -/
def chachaDiagonals : List Quad := [⟨0, 5, 10, 15⟩, ⟨1, 6, 11, 12⟩, ⟨2, 7, 8, 13⟩, ⟨3, 4, 9, 14⟩]

/-- The lane layout of a cipher (42_arx_family.md R168). -/
def laneLayout (a : Arx) (k : RegFile Word 8) (iv : RegFile Byte 32) (index : BitVec 64) : Lanes :=
  match a with
  | .salsa20 => salsaLayout k iv index
  | .chacha20 => chachaLayout k iv index

/-- The quarter-round of a cipher. -/
def quarterRound : Arx → Quad → Lanes → Lanes
  | .salsa20 => salsaQR
  | .chacha20 => chachaQR

/-- The quadruples of the first round of a double round. -/
def firstRoundQuads : Arx → List Quad
  | .salsa20 => salsaColumns
  | .chacha20 => chachaColumns

/-- The quadruples of the second round of a double round. -/
def secondRoundQuads : Arx → List Quad
  | .salsa20 => salsaRows
  | .chacha20 => chachaDiagonals

/-- One round: the quarter-round on each quadruple in order (42_arx_family.md R171). -/
def arxRound (a : Arx) (quads : List Quad) (l : Lanes) : Lanes := quads.foldl (fun l q => quarterRound a q l) l

/-- `doubleRound()` (43_salsa20.md R184, 44_chacha20.md R199). -/
def doubleRound (a : Arx) (l : Lanes) : Lanes := arxRound a (secondRoundQuads a) (arxRound a (firstRoundQuads a) l)

/-- `initBlock()` (42_arx_family.md R168). -/
def initBlock (a : Arx) (s : State) : State := { s with S := laneLayout a s.K s.IVB s.BLOCKINDEX }

/-- `X[i] <- S[i]` (42_arx_family.md R165). -/
def copyLanes (s : State) : State := { s with X := s.S }

/-- `rounds()`, 10 double rounds (42_arx_family.md R169). -/
def rounds (a : Arx) (s : State) : State := { s with X := (doubleRound a)^[10] s.X }

/-- `addBlock()` (42_arx_family.md R170). -/
def addBlock (s : State) : State := { s with B := List.zipWith (· + ·) s.X.elems s.S.elems }

/-- `X[i] <- 0; S[i] <- 0` (42_arx_family.md R165, 10_state.md R33). -/
def clearLanes (s : State) : State := { s with X := RegFile.fill 16 0, S := RegFile.fill 16 0 }

/-- `streamBlock()` (42_arx_family.md R165). -/
def streamBlock (a : Arx) (s : State) : State := clearLanes (addBlock (rounds a (copyLanes (initBlock a s))))

end Sys2Proof.Machine
end

