-- ==== Sys2Proof/Machine/Hc256.lean ====
section
/-!
DEFINITION. HC-256 (45_hc256.md): the six functions, the step, and the initialization.
-/

namespace Sys2Proof.Machine

/-- `f1` (R210). -/
def f1 (x : Word) : Word := rotr x 7 ^^^ rotr x 18 ^^^ shr x 3

/-- `f2` (R211). -/
def f2 (x : Word) : Word := rotr x 17 ^^^ rotr x 19 ^^^ shr x 10

/-- A table index from the low 10 bits of a word: `x & 1023` (20_memory.md R61). -/
def tableIndex (x : Word) : Fin 1024 := Fin.ofNat 1024 (x &&& 1023#32).toNat

/-- The index `256*k + byte_k(x)` (20_memory.md R61). -/
def quarterIndex (k : Nat) (x : Word) : Fin 1024 := Fin.ofNat 1024 (256 * k + (shr x (8 * k) &&& 0xff#32).toNat)

/-- `g1`, which reads `Q` (R212). -/
def g1 (t : TableState) (x y : Word) : Word := (rotr x 10 ^^^ rotr y 23) + t.Q.read (tableIndex (x ^^^ y))

/-- `g2`, which reads `P` (R213). -/
def g2 (t : TableState) (x y : Word) : Word := (rotr x 10 ^^^ rotr y 23) + t.P.read (tableIndex (x ^^^ y))

/-- `h1`, which reads `Q` (R214). -/
def h1 (t : TableState) (x : Word) : Word :=
  t.Q.read (quarterIndex 0 x) + t.Q.read (quarterIndex 1 x) + t.Q.read (quarterIndex 2 x) + t.Q.read (quarterIndex 3 x)

/-- `h2`, which reads `P` (R215). -/
def h2 (t : TableState) (x : Word) : Word :=
  t.P.read (quarterIndex 0 x) + t.P.read (quarterIndex 1 x) + t.P.read (quarterIndex 2 x) + t.P.read (quarterIndex 3 x)

/-- The cursor's place in its half: `IDX & 1023` (R216). -/
def cursorIndex (t : TableState) : Fin 1024 := Fin.ofNat 1024 t.IDX.toNat

/-- The word a `P` step writes to `P[j]` (R216). Subtraction in `Fin 1024` is the masked subtraction of 20_memory.md R61. -/
def newP (t : TableState) (j : Fin 1024) : Word :=
  t.P.read j + t.P.read (j - 10) + g1 t (t.P.read (j - 3)) (t.P.read (j - 1023))

/-- The word a `Q` step writes to `Q[j]` (R217). -/
def newQ (t : TableState) (j : Fin 1024) : Word :=
  t.Q.read j + t.Q.read (j - 10) + g2 t (t.Q.read (j - 3)) (t.Q.read (j - 1023))

/-- A `P` step: the output uses the `P[j]` just written (R216, 20_memory.md R69). -/
def pStep (t : TableState) : Word × TableState :=
  let j := cursorIndex t
  let t := { t with P := t.P.write j (newP t j) }
  (h1 t (t.P.read (j - 12)) ^^^ t.P.read j, t)

/-- A `Q` step (R217). -/
def qStep (t : TableState) : Word × TableState :=
  let j := cursorIndex t
  let t := { t with Q := t.Q.write j (newQ t j) }
  (h2 t (t.Q.read (j - 12)) ^^^ t.Q.read j, t)

/-- `IDX <- (IDX + 1) mod 2048` (R218). -/
def advanceCursor (t : TableState) : TableState := { t with IDX := t.IDX + 1 }

/-- `hc256_step()`: one keystream word, and the tables after it (R216). -/
def hcStep (t : TableState) : Word × TableState :=
  let r := if t.IDX.toNat < 1024 then pStep t else qStep t
  (r.1, advanceCursor r.2)

/-- The tables after one step whose word is discarded (R223). -/
def hcAdvance (t : TableState) : TableState := (hcStep t).2

/-- The next `n` keystream words, and the tables after them (40_keystream_engine.md R126). -/
def hcWords : Nat → TableState → List Word × TableState
  | 0, t => ([], t)
  | n + 1, t =>
    let r := hcStep t
    let more := hcWords n r.2
    (r.1 :: more.1, more.2)

/-- `W[i] <- K[i]`, `W[8 + i] <- V[i]` for i in 0..7 (R220). -/
def hcLoad (k : RegFile Word 8) (iv : RegFile Byte 32) (w : RegFile Word 2660) : RegFile Word 2660 :=
  RegFile.ofFn fun i =>
    if hk : i.val < 8 then k.read ⟨i.val, hk⟩
    else if hv : i.val - 8 < 8 then ivWord iv ⟨i.val - 8, hv⟩
    else w.read i

/-- The word the recurrence gives `W[i]`, for i in 16..2659 (R221). -/
def hcRecurrence (w : RegFile Word 2660) (i : Nat) : Word :=
  let at' := fun k => w.read (Fin.ofNat 2660 (i - k))
  f2 (at' 2) + at' 7 + f1 (at' 15) + at' 16 + BitVec.ofNat 32 i

/-- `count` rounds of the recurrence from index `i` upwards (R221). -/
def hcExtend : Nat → Nat → RegFile Word 2660 → RegFile Word 2660
  | 0, _, w => w
  | count + 1, i, w => hcExtend count (i + 1) (w.write (Fin.ofNat 2660 i) (hcRecurrence w i))

/-- `hcExpand()`: `W[0..2659]` from `K` and `V`, 2644 words by the recurrence (R220, R221). -/
def hcExpand (s : State) : State := { s with W := hcExtend 2644 16 (hcLoad s.K s.IVB s.W) }

/-- `P` from `W[512..1535]` (R222). -/
def seedP (w : RegFile Word 2660) : Table := RegFile.ofFn fun i => w.read ⟨512 + i.val, by omega⟩

/-- `Q` from `W[1536..2559]` (R222). -/
def seedQ (w : RegFile Word 2660) : Table := RegFile.ofFn fun i => w.read ⟨1536 + i.val, by omega⟩

/-- `hcSeed()`: the tables from `W`, and `W` wiped (R222). -/
def hcSeed (s : State) : State :=
  { s with tab := { s.tab with P := seedP s.W, Q := seedQ s.W }, W := RegFile.fill 2660 0 }

/-- `IDX <- 0` (R219). -/
def clearCursor (s : State) : State := { s with tab := { s.tab with IDX := 0 } }

/-- The warm-up: 4096 steps whose words are discarded (R223). -/
def hcWarmUp (s : State) : State := { s with tab := hcAdvance^[4096] s.tab }

/-- `hc256_init()` (R219). -/
def hc256Init (s : State) : State := hcWarmUp (clearCursor (hcSeed (hcExpand s)))

end Sys2Proof.Machine
end

