-- ==== Sys2Proof/Machine/Keystream.lean ====
section
/-!
DEFINITION. The KeystreamEngine (40_keystream_engine.md R124 to R126): computing a block, crossing a block boundary, one byte
of APPLY. `n` is `HC_BLOCK_WORDS` throughout (00_scope.md R6).
-/

namespace Sys2Proof.Machine

/-- The next block of HC-256: `HC_BLOCK_WORDS` steps (R126). -/
def hcBlock (n : Nat) (s : State) : State :=
  let r := hcWords n s.tab
  { s with B := r.1, tab := r.2 }

/-- `computeBlock()` (R126). -/
def computeBlock (n : Nat) (c : Cipher) (s : State) : State :=
  match c with
  | .arx a => streamBlock a s
  | .hc256 => hcBlock n s

/-- `crossBoundary()` (R125). -/
def crossBoundary (n : Nat) (c : Cipher) (s : State) : State :=
  computeBlock n c { s with BLOCKINDEX := s.BLOCKINDEX + 1, BLOCKOFFSET := 0 }

/-- The advance of `BLOCKOFFSET` past one byte, across the boundary where it reaches `BLOCK_BYTES` (R124). -/
def advanceByte (n : Nat) (c : Cipher) (s : State) : State :=
  let s := { s with BLOCKOFFSET := s.BLOCKOFFSET + 1 }
  if s.BLOCKOFFSET = blockBytes n c then crossBoundary n c s else s

/-- `applyByte(b)`: the output byte, from the block as it is before any recomputation, and the state after (R124). -/
def applyByte (n : Nat) (c : Cipher) (b : Byte) (s : State) : Byte × State :=
  (b ^^^ blockByte s.B s.BLOCKOFFSET, advanceByte n c s)

/-- The loop of APPLY: each output byte is appended as it is made (R123). -/
def applyBytes (n : Nat) (c : Cipher) : List Byte → State → State
  | [], s => s
  | b :: bs, s =>
    let r := applyByte n c b s
    applyBytes n c bs (rspWrite [r.1] r.2)

end Sys2Proof.Machine
end

