-- ==== Sys2Proof/Machine/Engine.lean ====
section
/-!
DEFINITION. The commands CONSTRUCT, INIT, APPLY, GETPOS and GETIV (40_keystream_engine.md R120 to R128). Each takes
`HC_BLOCK_WORDS` as an argument `n`, as 00_scope.md R6 asks; the meaning `exec` calls gives it the core's own value. A command
runs after its bytes are consumed (30_encoding.md R91) and always completes.
-/

namespace Sys2Proof.Machine

/-- CONSTRUCT (R120). -/
def construct (n : Nat) (alg : Byte) (s : State) : State :=
  if 3 < alg.toNat then raise .unknownAlgorithm s
  else rspWrite [statusCode .ok] (selectAlg n (algOfCode (alg.extractLsb' 0 2)) (release s))

/-- INIT after its checks have passed (R122): "no failure is possible from here on". -/
def initEngine (n : Nat) (c : Cipher) (key : RegFile Byte 32) (iv : List Byte) (pos : Pos) (s : State) : State :=
  let s := setPosition n c pos { s with K := keyWords key, IVB := storeIV iv s.IVB }
  let s := if c = .hc256 then hc256Init s else s
  rspWrite [statusCode .ok] (setReady (computeBlock n c s))

/-- INIT (R122), its checks in the order of R249. -/
def init (n : Nat) (key iv : List Byte) (pos : Pos) (s : State) : State :=
  match s.ALG with
  | none => raise .notConstructed s
  | some c =>
    if h : key.length = 32 then
      if iv.length ≠ ivBytes c then raise .invalidIVLength s
      else if c = .hc256 ∧ pos ≠ 0 then raise .unsupportedSeek s
      else initEngine n c ⟨key, h⟩ iv pos s
    else raise .invalidKeyLength s

/-- APPLY (R123). -/
def apply (n : Nat) (data : List Byte) (s : State) : State :=
  match readyCipher s with
  | none => raise .notReady s
  | some c => applyBytes n c data (rspWrite [statusCode .ok] s)

/-- GETPOS (R127). -/
def getpos (n : Nat) (s : State) : State :=
  match readyCipher s with
  | none => raise .notReady s
  | some c => rspWrite (statusCode .ok :: leBytes 8 (positionView n c s).toNat) s

/-- GETIV (R128). -/
def getiv (s : State) : State :=
  match readyCipher s with
  | none => raise .notReady s
  | some c => rspWrite (statusCode .ok :: BitVec.ofNat 8 (ivBytes c) :: s.IVB.elems.take (ivBytes c)) s

/-- The meaning of CONSTRUCT (R120). -/
def execConstruct (alg : Byte) (s : State) : Host.Outcome State Fault Refusal :=
  .next (construct Config.hcBlockWords alg s)

/-- The meaning of INIT (R122). -/
def execInit (key iv : List Byte) (pos : Pos) (s : State) : Host.Outcome State Fault Refusal :=
  .next (init Config.hcBlockWords key iv pos s)

/-- The meaning of APPLY (R123). -/
def execApply (data : List Byte) (s : State) : Host.Outcome State Fault Refusal := .next (apply Config.hcBlockWords data s)

/-- The meaning of GETPOS (R127). -/
def execGetpos (s : State) : Host.Outcome State Fault Refusal := .next (getpos Config.hcBlockWords s)

/-- The meaning of GETIV (R128). -/
def execGetiv (s : State) : Host.Outcome State Fault Refusal := .next (getiv s)

end Sys2Proof.Machine
end

