-- ==== Sys2Proof/Machine/Seekable.lean ====
section
/-!
DEFINITION. The command SEEK (41_seekable.md R150, R151).
-/

namespace Sys2Proof.Machine

/-- SEEK after its checks have passed (R150). On HC-256 the position is 0 and the engine is initialized again from the stored
key and IV (R151). -/
def seekEngine (n : Nat) (c : Cipher) (pos : Pos) (s : State) : State :=
  let s := if c = .hc256 then hc256Init s else s
  rspWrite [statusCode .ok] (computeBlock n c (setPosition n c pos s))

/-- SEEK (R150), its checks in the order of 60_exceptions.md R249. -/
def seek (n : Nat) (pos : Pos) (s : State) : State :=
  match readyCipher s with
  | none => raise .notReady s
  | some c => if c = .hc256 ∧ pos ≠ 0 then raise .unsupportedSeek s else seekEngine n c pos s

/-- The meaning of SEEK (R150). -/
def execSeek (pos : Pos) (s : State) : Host.Outcome State Fault Refusal := .next (seek Config.hcBlockWords pos s)

end Sys2Proof.Machine
end

