-- ==== Sys2Proof/Syntax.lean ====
section
/-!
DEFINITION. The commands of KSC as data: one constructor per row of spec/opcode_table.json (30_encoding.md R92). The length
fields `klen`, `ivlen` and `len` are the lengths of the byte strings they count (R94, R96).
-/

namespace Sys2Proof

/-- A host command, the "instruction" of this hardware. -/
inductive Instr where
  /-- CONSTRUCT, format C (R93): the algorithm code, any byte. -/
  | construct (alg : Byte)
  /-- INIT, format I (R94): key bytes, IV bytes, start position. -/
  | init (key iv : List Byte) (pos : Pos)
  /-- SEEK, format S (R95): target position. -/
  | seek (pos : Pos)
  /-- APPLY, format A (R96): the data bytes. -/
  | apply (data : List Byte)
  /-- GETPOS, format N (R97). -/
  | getpos
  /-- GETIV, format N (R97). -/
  | getiv
  deriving DecidableEq, Repr

end Sys2Proof
end

