-- ==== Sys2Proof/Machine/Dispatch.lean ====
section
/-!
DEFINITION. The meaning of each command: one arm per row of the opcode map (30_encoding.md R92).
-/

namespace Sys2Proof.Machine

def exec (i : Instr) (s : State) : Host.Outcome State Fault Refusal :=
  match i with
  | .construct alg => Sys2Proof.Machine.execConstruct alg s
  | .init key iv pos => Sys2Proof.Machine.execInit key iv pos s
  | .seek pos => Sys2Proof.Machine.execSeek pos s
  | .apply data => Sys2Proof.Machine.execApply data s
  | .getpos => Sys2Proof.Machine.execGetpos s
  | .getiv => Sys2Proof.Machine.execGetiv s

end Sys2Proof.Machine
end

