-- ==== Sys2Proof/WellFormed.lean ====
section
/-!
DEFINITION. Which commands have an encoding: a byte string must fit the length field that counts it (30_encoding.md R94, R96).
Every other operand value is a legal encoding (R103).
-/

namespace Sys2Proof

/-- A command is well formed when each of its byte strings fits its length field: one byte for `klen` and `ivlen`, four
bytes for `len`. -/
def Instr.wellFormed : Instr → Bool
  | .construct _ => true
  | .init key iv _ => decide (key.length < 2 ^ 8) && decide (iv.length < 2 ^ 8)
  | .seek _ => true
  | .apply data => decide (data.length < 2 ^ 32)
  | .getpos => true
  | .getiv => true

end Sys2Proof
end

