-- ==== Sys2Proof/Decode.lean ====
section
/-!
DEFINITION. The command decoder and encoder, from the opcode map and the formats of 30_encoding.md (R91 to R98). Decoding
reads bytes alone: no piece of state changes it (R91, R105).
-/

namespace Sys2Proof

open Sys2Proof.Machine

/-- The six opcodes (R92). -/
inductive Opcode where
  | construct
  | init
  | seek
  | apply
  | getpos
  | getiv
  deriving DecidableEq, Repr

/-- The opcode map, one row per legal opcode byte (R92). -/
def opcodeMap : List (Byte × Opcode) :=
  [(0x01, .construct), (0x02, .init), (0x03, .seek), (0x04, .apply), (0x05, .getpos), (0x06, .getiv)]

/-- The opcode a byte selects; `none` for 0x00 and 0x07..0xFF, which select no command (R92, R104). -/
def opcodeOfByte (b : Byte) : Option Opcode := opcodeMap.lookup b

/-- The byte that selects an opcode (R92). -/
def opcodeByte : Opcode → Byte
  | .construct => 0x01
  | .init => 0x02
  | .seek => 0x03
  | .apply => 0x04
  | .getpos => 0x05
  | .getiv => 0x06

/-- What the decoder finds at the head of the command stream. -/
inductive Decoded where
  /-- A whole command and the bytes after it (R91). -/
  | command (i : Instr) (rest : List Byte)
  /-- A byte that selects no command, and the bytes after it (R104). -/
  | illegal (op : Byte) (rest : List Byte)
  /-- Too few bytes for a command or for a length field it depends on, or no byte at all (R102). -/
  | incomplete
  deriving DecidableEq, Repr

/-- The next byte and the bytes after it, if there is one. -/
def takeByte : List Byte → Option (Byte × List Byte)
  | [] => none
  | b :: bs => some (b, bs)

/-- The next `n` bytes and the bytes after them, if there are that many: `CmdRead(n)` of R90 on bytes that have arrived. -/
def takeBytes (n : Nat) (bs : List Byte) : Option (List Byte × List Byte) :=
  if n ≤ bs.length then some (bs.take n, bs.drop n) else none

/-- A little-endian position operand (R98 c). -/
def takePos (bs : List Byte) : Option (Pos × List Byte) :=
  (takeBytes 8 bs).map fun r => (BitVec.ofNat 64 (leValue r.1), r.2)

/-- The operands of format C (R93). -/
def parseConstruct (bs : List Byte) : Option (Instr × List Byte) :=
  (takeByte bs).map fun alg => (.construct alg.1, alg.2)

/-- The operands of format I (R94). -/
def parseInit (bs : List Byte) : Option (Instr × List Byte) :=
  (takeByte bs).bind fun klen =>
  (takeBytes klen.1.toNat klen.2).bind fun key =>
  (takeByte key.2).bind fun ivlen =>
  (takeBytes ivlen.1.toNat ivlen.2).bind fun iv =>
  (takePos iv.2).map fun pos => (.init key.1 iv.1 pos.1, pos.2)

/-- The operands of format S (R95). -/
def parseSeek (bs : List Byte) : Option (Instr × List Byte) :=
  (takePos bs).map fun pos => (.seek pos.1, pos.2)

/-- The operands of format A (R96). -/
def parseApply (bs : List Byte) : Option (Instr × List Byte) :=
  (takeBytes 4 bs).bind fun len =>
  (takeBytes (leValue len.1) len.2).map fun data => (.apply data.1, data.2)

/-- The operands of the command an opcode selects (R93 to R97). -/
def parseOperands (op : Opcode) (bs : List Byte) : Option (Instr × List Byte) :=
  match op with
  | .construct => parseConstruct bs
  | .init => parseInit bs
  | .seek => parseSeek bs
  | .apply => parseApply bs
  | .getpos => some (.getpos, bs)
  | .getiv => some (.getiv, bs)

/-- The decoder, total on any bytes (R91). -/
def decode : List Byte → Decoded
  | [] => .incomplete
  | b :: bs =>
    match opcodeOfByte b with
    | none => .illegal b bs
    | some op =>
      match parseOperands op bs with
      | none => .incomplete
      | some r => .command r.1 r.2

/-- The total length of a command in bytes (R92). -/
def commandLength : Instr → Nat
  | .construct _ => 2
  | .init key iv _ => 3 + key.length + iv.length + 8
  | .seek _ => 9
  | .apply data => 5 + data.length
  | .getpos => 1
  | .getiv => 1

/-- The length `L` of the command at the head of a stream, from the opcode byte and the length fields alone (R91, R92);
one byte for an illegal opcode (R104), `none` where a byte that `L` depends on has not arrived (R102). -/
def frameLength : List Byte → Option Nat
  | [] => none
  | b :: bs =>
    match opcodeOfByte b with
    | none => some 1
    | some .construct => some 2
    | some .init =>
      (takeByte bs).bind fun klen =>
      (klen.2[klen.1.toNat]?).map fun ivlen => 3 + klen.1.toNat + ivlen.toNat + 8
    | some .seek => some 9
    | some .apply => (takeBytes 4 bs).map fun len => 5 + leValue len.1
    | some .getpos => some 1
    | some .getiv => some 1

/-- The bytes of a command, from the format tables (R93 to R97). -/
def encode : Instr → List Byte
  | .construct alg => [opcodeByte .construct, alg]
  | .init key iv pos =>
    opcodeByte .init :: BitVec.ofNat 8 key.length :: (key ++ BitVec.ofNat 8 iv.length :: (iv ++ leBytes 8 pos.toNat))
  | .seek pos => opcodeByte .seek :: leBytes 8 pos.toNat
  | .apply data => opcodeByte .apply :: (leBytes 4 data.length ++ data)
  | .getpos => [opcodeByte .getpos]
  | .getiv => [opcodeByte .getiv]

/-- The bytes of the opcode-table word `w` of `nbits` bits, in stream order, with every byte the command has above them zero:
exactly one command's bytes. 521 bytes cover every length field (R94: at most 3 + 255 + 255 + 8). -/
def layoutTableWord (nbits w : Nat) : List Byte :=
  let given := leBytes ((nbits + 7) / 8) w
  let total := (frameLength (given ++ List.replicate 521 0)).getD 1
  (given ++ List.replicate total 0).take total

/-- The command the decoder reads from an opcode-table word. -/
def decodeTableWord (nbits w : Nat) : Option Instr :=
  match decode (layoutTableWord nbits w) with
  | .command i _ => some i
  | .illegal _ _ => none
  | .incomplete => none

end Sys2Proof
end

