-- ==== Sys2Proof/Machine/Fetch.lean ====
section
/-!
DEFINITION. What the core finds to do next (30_encoding.md R91, R102, R104; 70_reset_and_hazards.md R280, R284), and placing a
command at the head of the command stream.
-/

namespace Sys2Proof.Machine

/-- What the core finds to do next. -/
inductive Fetched where
  /-- A whole command, and the state with its bytes consumed (R91). -/
  | command (i : Instr) (s : State)
  /-- An event that is no command, and the state after it: reset (R280) or an illegal opcode (R104). -/
  | event (s : State)
  /-- No step is enabled (R284). -/
  | idle (reason : Fault)
  deriving DecidableEq, Repr

/-- Reset comes before anything in the streams (R280); a halted core reads nothing (R104); otherwise the head of the command
stream is decoded (R91). -/
def fetch (s : State) : Fetched :=
  if s.RESET then .event (takeReset s)
  else if s.HALTED then .idle .halted
  else
    match decode s.cmd with
    | .command i rest => .command i (consume (commandLength i) rest s)
    | .illegal _ rest => .event (illegalCommand (consume 1 rest s))
    | .incomplete => .idle (if s.cmd.isEmpty then .commandStreamEmpty else .commandIncomplete)

/-- The bytes placed at the head of the command stream of a core that is free to read them (R91): what stood in the stream
follows them. -/
def placeCommand (bytes : List Byte) (s : State) : State :=
  { s with cmd := bytes ++ s.cmd, HALTED := false, RESET := false }

end Sys2Proof.Machine
end

