-- ==== Sys2Proof/Machine/Step.lean ====
section
/-!
DEFINITION. One step of the core: one command, one event, or none (30_encoding.md R91, 70_reset_and_hazards.md R284).
-/

namespace Sys2Proof.Machine

def step (s : State) : Host.Outcome State Fault Refusal :=
  match fetch s with
  | .command i s' => exec i s'
  | .event s' => .next s'
  | .idle reason => .fault reason

/-- The command of an opcode-table word at the head of the command stream, so that `step` runs it next. Log 9. -/
def State.withFetchWord (s : State) (nbits w : Nat) : State := placeCommand (layoutTableWord nbits w) s

end Sys2Proof.Machine
end

