-- ==== Sys2Proof/Machine/Assembler.lean ====
section
/-!
DEFINITION. The assembler of 30_encoding.md R110 and R111: what each line of assembly stands for. A line is data, its mnemonic and
operands already told apart: the characters of a source text are no business of the core (log 10).
-/

namespace Sys2Proof.Machine

/-- A byte-string operand (R110). -/
inductive AsmBytes where
  /-- `hex:` and the bytes. -/
  | hex (bytes : List Byte)
  /-- A double-quoted string of ASCII characters. -/
  | ascii (chars : List (BitVec 7))
  /-- `zeros(n)`. -/
  | zeros (n : Nat)
  /-- `seq(a..b)`: a, a + 1 or a - 1, up or down to b. -/
  | seq (a b : Byte)
  deriving DecidableEq, Repr

/-- The bytes an operand stands for (R110). -/
def asmBytes : AsmBytes → List Byte
  | .hex bytes => bytes
  | .ascii chars => chars.map fun c => c.setWidth 8
  | .zeros n => List.replicate n 0
  | .seq a b =>
    if a.toNat ≤ b.toNat then (List.range (b.toNat - a.toNat + 1)).map fun i => BitVec.ofNat 8 (a.toNat + i)
    else (List.range (a.toNat - b.toNat + 1)).map fun i => BitVec.ofNat 8 (a.toNat - i)

/-- An algorithm operand: a name, or a number 0..255 (R110). -/
inductive AsmAlg where
  | name (alg : Option Cipher)
  | number (code : Byte)
  deriving DecidableEq, Repr

/-- The code of an algorithm operand (R110, 10_state.md R22). -/
def asmAlg : AsmAlg → Byte
  | .name none => 0
  | .name (some (.arx .salsa20)) => 1
  | .name (some (.arx .chacha20)) => 2
  | .name (some .hc256) => 3
  | .number code => code

/-- A line of assembly: a command (R110) or a pseudo-instruction (R111). -/
inductive AsmLine where
  | construct (alg : AsmAlg)
  /-- `INIT key=.., iv=.., pos=..`; `none` where `pos` is not written (R111). -/
  | init (key iv : AsmBytes) (pos : Option Pos)
  | seek (pos : Pos)
  | apply (data : AsmBytes)
  | getpos
  | getiv
  | encrypt (data : AsmBytes)
  | decrypt (data : AsmBytes)
  | update (data : AsmBytes)
  /-- `KEYSTREAM n`. -/
  | keystream (n : Nat)
  | release
  deriving DecidableEq, Repr

/-- A byte string in pieces of at most `m` bytes; `fuel` bounds the number of cuts. DESIGN CHOICE (log 10): R111 bounds the length
of a piece and does not say where the cuts fall; here every piece but the last has `m` bytes. -/
def pieces (m : Nat) : Nat → List Byte → List (List Byte)
  | 0, bs => [bs]
  | fuel + 1, bs => if bs.length ≤ m then [bs] else bs.take m :: pieces m fuel (bs.drop m)

/-- The APPLY commands for any number of bytes: one, or as many as it takes, each of at most 2^32 - 1 bytes
(R111; where they are cut is the model's choice, log 10). -/
def applyCommands (data : List Byte) : List Instr := (pieces (2 ^ 32 - 1) data.length data).map .apply

/-- The commands of a line. `none` where a key or an IV is longer than the 255 bytes its length field can count (R110). -/
def asmLine : AsmLine → Option (List Instr)
  | .construct alg => some [.construct (asmAlg alg)]
  | .init key iv pos =>
    if (asmBytes key).length ≤ 255 ∧ (asmBytes iv).length ≤ 255 then
      some [.init (asmBytes key) (asmBytes iv) (pos.getD 0)]
    else none
  | .seek pos => some [.seek pos]
  | .apply data => some (applyCommands (asmBytes data))
  | .getpos => some [.getpos]
  | .getiv => some [.getiv]
  | .encrypt data => some (applyCommands (asmBytes data))
  | .decrypt data => some (applyCommands (asmBytes data))
  | .update data => some (applyCommands (asmBytes data))
  | .keystream n => some (applyCommands (asmBytes (.zeros n)))
  | .release => some [.construct 0]

/-- The commands of a program, line by line (R110). -/
def asmCommands : List AsmLine → Option (List Instr)
  | [] => some []
  | l :: ls => (asmLine l).bind fun is => (asmCommands ls).map fun more => is ++ more

/-- The command-stream bytes of a program (R110). -/
def assemble (lines : List AsmLine) : Option (List Byte) := (asmCommands lines).map fun is => is.flatMap encode

end Sys2Proof.Machine
end

