-- ==== Sys2Proof/Machine/HostSide.lean ====
section
/-!
DEFINITION. What the host can do to the core (10_state.md R20, 30_encoding.md R90): append command bytes, remove response
bytes, assert reset. It acts between steps (log 2).
-/

namespace Sys2Proof.Machine

/-- Append bytes to the command stream (R20). -/
def hostSend (bs : List Byte) (s : State) : State := { s with cmd := s.cmd ++ bs }

/-- Remove the first `k` bytes of the response stream, or all of them if it holds fewer (R20): the bytes, and the state
after. -/
def hostReceive (k : Nat) (s : State) : List Byte × State := (s.rsp.take k, { s with rsp := s.rsp.drop k })

/-- Assert reset (70_reset_and_hazards.md R280): the core takes it at its next step. -/
def hostReset (s : State) : State := { s with RESET := true }

end Sys2Proof.Machine
end

