-- ==== Sys2Proof/Safety.lean ====
section
/-!
DEFINITION. The terms claims are stated in: the keystream as a mathematical function (40_keystream_engine.md R129,
42_arx_family.md R165, 45_hc256.md R224, R225), the invariant of the engine (10_state.md R37, R38), runs of commands, and the
end of a run (70_reset_and_hazards.md R284). `n` is `HC_BLOCK_WORDS` (00_scope.md R6).
-/

namespace Sys2Proof.Safety

open Sys2Proof.Machine

/-- A state with bytes appended to its response stream and counted in `rc` (30_encoding.md R100, 10_state.md R26). -/
def answered (bs : List Byte) (s : State) : State := { s with rsp := s.rsp ++ bs, rc := s.rc + bs.length }

/-- `streamBlock(alg, K, V, n)`, the mathematical function of 42_arx_family.md R165: ten double rounds of the initial lanes,
plus the initial lanes. -/
def arxBlock (a : Arx) (k : RegFile Word 8) (iv : RegFile Byte 32) (index : BitVec 64) : List Word :=
  List.zipWith (· + ·) ((doubleRound a)^[10] (laneLayout a k iv index)).elems (laneLayout a k iv index).elems

/-- The HC-256 tables of a key and IV before the warm-up (45_hc256.md R220 to R222). -/
def hcSeeded (k : RegFile Word 8) (iv : RegFile Byte 32) : TableState :=
  let w := hcExtend 2644 16 (hcLoad k iv (RegFile.fill 2660 0))
  { P := seedP w, Q := seedQ w, IDX := 0 }

/-- The HC-256 tables of a key and IV when `m` words have been generated since the warm-up (45_hc256.md R223, R224). -/
def hcTables (k : RegFile Word 8) (iv : RegFile Byte 32) (m : Nat) : TableState :=
  hcAdvance^[m] (hcAdvance^[4096] (hcSeeded k iv))

/-- The HC-256 keystream word `s[m]` of a key and IV (45_hc256.md R224). -/
def hcWord (k : RegFile Word 8) (iv : RegFile Byte 32) (m : Nat) : Word := (hcStep (hcTables k iv m)).1

/-- Block `m` of the HC-256 keystream: words `m * n` to `m * n + n - 1` (45_hc256.md R225). -/
def hcBlockAt (n : Nat) (k : RegFile Word 8) (iv : RegFile Byte 32) (m : Nat) : List Word :=
  (List.range n).map fun w => hcWord k iv (m * n + w)

/-- The keystream word that holds the byte at position `q` (40_keystream_engine.md R129). A block has sixteen words, so the
default is never taken. -/
def keystreamWord (c : Cipher) (k : RegFile Word 8) (iv : RegFile Byte 32) (q : Nat) : Word :=
  match c with
  | .arx a => (arxBlock a k iv (BitVec.ofNat 64 (q / 64))).getD (q % 64 / 4) 0
  | .hc256 => hcWord k iv (q / 4)

/-- `KS(q)`, the keystream byte at position `q` (40_keystream_engine.md R129): byte `q mod 4` of its word, by arithmetic, the
least significant byte first (00_scope.md R11). -/
def keystreamByte (c : Cipher) (k : RegFile Word 8) (iv : RegFile Byte 32) (q : Nat) : Byte :=
  BitVec.ofNat 8 ((keystreamWord c k iv q).toNat / 2 ^ (8 * (q % 4)))

/-- The engine holds block `m` of the keystream of its key and IV (10_state.md R38 c, d): for HC-256 the tables are ahead by
exactly that block (R37). -/
def holdsBlock (n : Nat) (c : Cipher) (s : State) (m : Nat) : Prop :=
  match c with
  | .arx a => s.B = arxBlock a s.K s.IVB (BitVec.ofNat 64 m)
  | .hc256 => s.B = hcBlockAt n s.K s.IVB m ∧ s.tab = hcTables s.K s.IVB ((m + 1) * n)

/-- The invariant of the engine between commands (10_state.md R38, with R33, R35, R37 and R39): the scratch files are zero;
an engine that is not ready holds what CONSTRUCT or reset leaves for its algorithm; a ready engine is constructed, its offset lies inside the block,
and it holds block `m` of its keystream, where `BLOCKINDEX` is `m` as a 64-bit number. -/
structure EngineInv (n : Nat) (s : State) : Prop where
  lanesClear : s.X = RegFile.fill 16 0 ∧ s.S = RegFile.fill 16 0
  scratchClear : s.W = RegFile.fill 2660 0
  notReady : s.READY = false → s = selectAlg n s.ALG (release s)
  ready : s.READY = true → ∃ c m, s.ALG = some c ∧ s.BLOCKOFFSET < blockBytes n c ∧
    s.BLOCKINDEX = BitVec.ofNat 64 m ∧ holdsBlock n c s m

/-- Two engines, of cores whose `HC_BLOCK_WORDS` are `n` and `m`, that a host cannot tell apart (10_state.md R39, 45_hc256.md
R226): the same `ALG` and `READY` and, when ready, the same key, the same IV, the same position in the keystream, and each its
own block there. Engines that are not ready may hold anything. -/
structure Alike (n m : Nat) (s t : State) : Prop where
  alg : s.ALG = t.ALG
  ready : s.READY = t.READY
  engine : s.READY = true → ∃ c a b, s.ALG = some c ∧ s.K = t.K ∧
    (∀ i : Fin 32, i.val < ivBytes c → s.IVB.read i = t.IVB.read i) ∧
    (s.BLOCKOFFSET < blockBytes n c ∧ s.BLOCKINDEX = BitVec.ofNat 64 a ∧ holdsBlock n c s a) ∧
    (t.BLOCKOFFSET < blockBytes m c ∧ t.BLOCKINDEX = BitVec.ofNat 64 b ∧ holdsBlock m c t b) ∧
    a * blockBytes n c + s.BLOCKOFFSET = b * blockBytes m c + t.BLOCKOFFSET

/-- The position without reduction modulo 2^64: the premise of 70_reset_and_hazards.md R295 is about this number. -/
def absolutePosition (n : Nat) (c : Cipher) (s : State) : Nat := s.BLOCKINDEX.toNat * blockBytes n c + s.BLOCKOFFSET

/-- What a successful INIT with key words `k`, IV bytes `v` and position `pos` leaves (40_keystream_engine.md R122), and what a
successful SEEK leaves for the key and IV the engine holds (41_seekable.md R150, R151). -/
def positioned (n : Nat) (c : Cipher) (k : RegFile Word 8) (v : RegFile Byte 32) (pos : Pos) (s : State) : State :=
  match c with
  | .arx a =>
    { s with
      K := k, IVB := v, READY := true
      BLOCKINDEX := BitVec.ofNat 64 (pos.toNat / 64), BLOCKOFFSET := pos.toNat % 64
      B := arxBlock a k v (BitVec.ofNat 64 (pos.toNat / 64))
      X := RegFile.fill 16 0, S := RegFile.fill 16 0 }
  | .hc256 =>
    { s with
      K := k, IVB := v, READY := true
      BLOCKINDEX := 0, BLOCKOFFSET := 0
      B := hcBlockAt n k v 0, tab := hcTables k v n
      W := RegFile.fill 2660 0 }

/-- The state at the next block boundary (40_keystream_engine.md R125, R126): the next block, offset 0. -/
def atNextBlock (n : Nat) (c : Cipher) (s : State) : State :=
  match c with
  | .arx a =>
    { s with
      BLOCKINDEX := s.BLOCKINDEX + 1, BLOCKOFFSET := 0
      B := arxBlock a s.K s.IVB (s.BLOCKINDEX + 1)
      X := RegFile.fill 16 0, S := RegFile.fill 16 0 }
  | .hc256 =>
    { s with
      BLOCKINDEX := s.BLOCKINDEX + 1, BLOCKOFFSET := 0
      B := (List.range n).map fun w => (hcStep (hcAdvance^[w] s.tab)).1
      tab := hcAdvance^[n] s.tab }

/-- The state a command leaves, for a core whose `HC_BLOCK_WORDS` is `n` (00_scope.md R6). -/
def command (n : Nat) (i : Instr) (s : State) : State :=
  match i with
  | .construct alg => construct n alg s
  | .init key iv pos => Machine.init n key iv pos s
  | .seek pos => Machine.seek n pos s
  | .apply data => Machine.apply n data s
  | .getpos => Machine.getpos n s
  | .getiv => Machine.getiv s

/-- The state a list of commands leaves, in order (20_memory.md R68 a). -/
def runCommands (n : Nat) (is : List Instr) (s : State) : State := is.foldl (fun s i => command n i s) s

/-- A run has completed its program (70_reset_and_hazards.md R284): every command was consumed and the core is not halted. -/
def completed (s : State) : Prop := s.cmd = [] ∧ s.HALTED = false

end Sys2Proof.Safety
end

