-- ==== Sys2Proof/Certificates/Slice0/Obligations.lean ====
section
/-!
DEFINITION. The statements for the provers: what the numbered rules of spec/ say the core does. A docstring that begins with a
rule number formalises that rule; the others name the rules they rest on, and the decisions D<n> of 92_eei_decisions.md where
those rules are the spec's own choice. `Config.hcBlockWords` is `HC_BLOCK_WORDS`, which no statement fixes.
-/

open Sys2Proof
open Sys2Proof.Machine
open Sys2Proof.Safety

/-! ## Encoding -/

/-- Every well-formed command decodes from its encoding, whatever bytes follow (30_encoding.md R91 to R98, the spec's
own encoding, D1 to D7). -/
def Obligations.DecodeOfEncodeIsTheCommand : Prop :=
  ∀ (i : Instr) (rest : List Byte), i.wellFormed = true → decode (encode i ++ rest) = .command i rest

/-- Every decoded command is well formed and its bytes are its encoding: no byte string has two meanings, and every byte of a
command is accounted for (30_encoding.md R91 to R98, the spec's own encoding, D1 to D7). -/
def Obligations.DecodedCommandIsItsEncoding : Prop :=
  ∀ (bs rest : List Byte) (i : Instr), decode bs = .command i rest → i.wellFormed = true ∧ bs = encode i ++ rest

/-- Commands written out from the format tables of 30_encoding.md R93 to R97 (D2 to D4) decode to what they stand for. -/
def Obligations.FormatTableBytesDecode : Prop :=
  decode [0x01, 0x02, 0xaa] = .command (.construct 2) [0xaa] ∧
  decode [0x02, 0x02, 0x11, 0x22, 0x01, 0x33, 0x05, 0x00, 0x00, 0x00, 0x00, 0x00, 0x00, 0x80] =
    .command (.init [0x11, 0x22] [0x33] 0x8000000000000005) [] ∧
  decode [0x03, 0xbe, 0x01, 0x00, 0x00, 0x00, 0x00, 0x00, 0x00] = .command (.seek 446) [] ∧
  decode [0x04, 0x02, 0x00, 0x00, 0x00, 0xfc, 0x80, 0x06] = .command (.apply [0xfc, 0x80]) [0x06] ∧
  decode [0x05] = .command .getpos [] ∧
  decode [0x06] = .command .getiv []

/-- The bytes that select no command are 0x00 and 0x07..0xFF, and they are illegal whatever follows (30_encoding.md R92,
R104, D2, D6). -/
def Obligations.IllegalOpcodesAreTheUnlistedBytes : Prop :=
  ∀ (b : Byte) (bs : List Byte), decode (b :: bs) = .illegal b bs ↔ (b = 0 ∨ 7 ≤ b.toNat)

/-- The length of a command comes from the opcode byte and the length fields alone: it is the opcode map's total length, the
decoder consumes exactly that many bytes, and it waits exactly while fewer have arrived or a length field has not
(30_encoding.md R91, R92, R102, D2, D7). -/
def Obligations.FrameLengthDecidesConsumption : Prop :=
  ∀ bs : List Byte,
    (∀ i rest, decode bs = .command i rest →
      frameLength bs = some (commandLength i) ∧ bs.length = commandLength i + rest.length) ∧
    (decode bs = .incomplete ↔ ∀ L, frameLength bs = some L → bs.length < L)

/-! ## Steps, events and the streams -/

/-- A step of a core that is free to read runs the command at the head of its stream, after consuming that command's bytes
(30_encoding.md R91, D2). -/
def Obligations.StepRunsTheDecodedCommand : Prop :=
  ∀ (s : State) (i : Instr) (rest : List Byte),
    s.RESET = false → s.HALTED = false → decode s.cmd = .command i rest →
    step s = exec i { s with cmd := rest, cc := s.cc + commandLength i }

/-- An illegal opcode byte is consumed, answered by 0xFF, and halts the core; a halted core has no step, which the model shows
as a fault of `step` (log 1); a step that leaves a halted core takes a reset (30_encoding.md R104, the spec's own decision
D6). -/
def Obligations.IllegalOpcodeHaltsUntilReset : Prop :=
  (∀ (s : State) (b : Byte) (rest : List Byte),
    s.RESET = false → s.HALTED = false → s.cmd = b :: rest → (b = 0 ∨ 7 ≤ b.toNat) →
    step s = .next { s with
      cmd := rest, cc := s.cc + 1, rsp := s.rsp ++ [0xff], rc := s.rc + 1, HALTED := true }) ∧
  (∀ s : State, s.RESET = false → s.HALTED = true → step s = .fault .halted) ∧
  (∀ s t : State, s.HALTED = true → step s = .next t → s.RESET = true ∧ t.HALTED = false)

/-- While the head of the stream is a legal opcode and the command's bytes, or the bytes of a length field, have not all
arrived, no step is enabled, which the model shows as a fault of `step` (log 1); bytes that complete the command let it run, and
nothing has been consumed before (30_encoding.md R102, the spec's own decision D7). -/
def Obligations.IncompleteCommandWaits : Prop :=
  (∀ (s : State) (b : Byte) (bs : List Byte),
    s.RESET = false → s.HALTED = false → s.cmd = b :: bs → 1 ≤ b.toNat → b.toNat ≤ 6 →
    (∀ L, frameLength s.cmd = some L → s.cmd.length < L) → step s = .fault .commandIncomplete) ∧
  (∀ (s : State) (i : Instr) (rest more : List Byte),
    s.RESET = false → s.HALTED = false → i.wellFormed = true → s.cmd ++ more = encode i ++ rest →
    step (hostSend more s) = exec i { s with cmd := rest, cc := s.cc + commandLength i })

/-- Reset, whenever asserted, leaves every register, memory and stream at its reset value, and the core then waits for a
command byte; only reset clears `HALTED` (70_reset_and_hazards.md R280, the spec's own decision D12). That the host asserts it
between steps, that waiting is a fault of `step`, and that `B` then holds sixteen words, are the model's (logs 1, 2 and 4). -/
def Obligations.ResetClearsEverything : Prop :=
  (∀ s : State, step (hostReset s) = .next
    { ALG := none, READY := false, HALTED := false, BLOCKINDEX := 0, BLOCKOFFSET := 0
      K := RegFile.fill 8 0, IVB := RegFile.fill 32 0, B := List.replicate 16 0
      X := RegFile.fill 16 0, S := RegFile.fill 16 0
      tab := { P := RegFile.fill 1024 0, Q := RegFile.fill 1024 0, IDX := 0 }
      W := RegFile.fill 2660 0, cmd := [], cc := 0, rsp := [], rc := 0, RESET := false }) ∧
  step State.reset = .fault .commandStreamEmpty ∧
  (∀ s t : State, s.HALTED = true → step s = .next t → t.HALTED = false → s.RESET = true)

/-- The values after reset (10_state.md R40, the spec's own decision D12). -/
def Obligations.ResetValuesAreZero : Prop :=
  State.reset.ALG = none ∧ State.reset.READY = false ∧ State.reset.HALTED = false ∧
  State.reset.BLOCKINDEX = 0 ∧ State.reset.BLOCKOFFSET = 0 ∧ State.reset.tab.IDX = 0 ∧
  (∀ i, State.reset.K.read i = 0) ∧ (∀ i, State.reset.IVB.read i = 0) ∧ (∀ w ∈ State.reset.B, w = 0) ∧
  (∀ i, State.reset.X.read i = 0) ∧ (∀ i, State.reset.S.read i = 0) ∧
  (∀ i, State.reset.tab.P.read i = 0) ∧ (∀ i, State.reset.tab.Q.read i = 0) ∧ (∀ i, State.reset.W.read i = 0) ∧
  State.reset.cc = 0 ∧ State.reset.rc = 0 ∧ State.reset.cmd = [] ∧ State.reset.rsp = []

/-- A run ends, with no step enabled, exactly when no reset is asserted and the stream is exhausted, or holds an incomplete
command, or the core is halted; no step is ever refused (70_reset_and_hazards.md R284, the spec's own
decision D7; that no step enabled is a fault of `step` is the model's, log 1). -/
def Obligations.RunEndsExactlyWhenNoStepIsEnabled : Prop :=
  (∀ s : State, (∃ r, step s = .fault r) ↔
    s.RESET = false ∧ (s.HALTED = true ∨ s.cmd = [] ∨ ∀ L, frameLength s.cmd = some L → s.cmd.length < L)) ∧
  (∀ (s : State) (r : Refusal), step s ≠ .refused r)

/-- Bytes that arrive later, and response bytes the host removes, change nothing about a step: what a command stream does
depends on its bytes, not on when they arrive (20_memory.md R68 d, 10_state.md R20; that the host acts between steps is the
model's, log 2). -/
def Obligations.StepIgnoresWhenTheHostActs : Prop :=
  ∀ s t : State, s.RESET = false → step s = .next t →
    (∀ more, step (hostSend more s) = .next (hostSend more t)) ∧
    (∀ k, k ≤ s.rsp.length →
      step (hostReceive k s).2 = .next (hostReceive k t).2 ∧ (hostReceive k t).1 = (hostReceive k s).1)

/-- `cc` counts the command bytes consumed and `rc` the response bytes produced; bytes are consumed from the front and
appended at the end (10_state.md R26, 30_encoding.md R90). -/
def Obligations.CursorsCountTheStreams : Prop :=
  ∀ s t : State, s.RESET = false → step s = .next t →
    (∃ consumed, consumed ≠ [] ∧ s.cmd = consumed ++ t.cmd ∧ t.cc = s.cc + consumed.length) ∧
    (∃ produced, produced ≠ [] ∧ t.rsp = s.rsp ++ produced ∧ t.rc = s.rc + produced.length)

/-- A core whose command stream begins with the encodings of a list of commands performs them one a step, in order, and
consumes exactly their bytes (30_encoding.md R91, the spec's own framing, D2; 20_memory.md R68 a, b). -/
def Obligations.StreamRunsItsCommands : Prop :=
  ∀ (is : List Instr) (rest : List Byte) (s : State),
    (∀ i ∈ is, i.wellFormed = true) → s.RESET = false → s.HALTED = false → s.cmd = is.flatMap encode ++ rest →
    Host.Core.run core is.length s = .next (runCommands Config.hcBlockWords is
      { s with cmd := rest, cc := s.cc + (is.map commandLength).sum })

/-! ## Responses and errors -/

/-- Every command completes and appends one response: a status byte, then a payload that is empty on an error and on success
is what the table gives the command (30_encoding.md R100, R101, the spec's own decision D5). -/
def Obligations.EveryCommandAnswersOnce : Prop :=
  ∀ (i : Instr) (s : State), ∃ (t : State) (status : Byte) (payload : List Byte),
    exec i s = .next t ∧ t.rsp = s.rsp ++ status :: payload ∧ t.rc = s.rc + 1 + payload.length ∧
    status ∈ ([0x00, 0x01, 0x02, 0x03, 0x10, 0x11, 0x12] : List Byte) ∧
    (status ≠ 0x00 → payload = []) ∧
    (status = 0x00 →
      match i with
      | .construct _ => payload = []
      | .init _ _ _ => payload = []
      | .seek _ => payload = []
      | .apply data => payload.length = data.length
      | .getpos => ∃ c, s.ALG = some c ∧ payload = (List.range 8).map fun k =>
          BitVec.ofNat 8 ((s.BLOCKINDEX.toNat * blockBytes Config.hcBlockWords c + s.BLOCKOFFSET) % 2 ^ 64 / 2 ^ (8 * k))
      | .getiv => ∃ c, s.ALG = some c ∧
          payload = BitVec.ofNat 8 (ivBytes c) :: ((List.finRange 32).take (ivBytes c)).map s.IVB.read)

/-- R250: the state after a failing command equals the state before it but for the response stream and its cursor. -/
def Obligations.FailingCommandChangesNothing : Prop :=
  ∀ (i : Instr) (s t : State) (status : Byte) (payload : List Byte),
    exec i s = .next t → t.rsp = s.rsp ++ status :: payload → status ≠ 0x00 →
    t = { s with rsp := s.rsp ++ [status], rc := s.rc + 1 }

/-! ## The commands -/

/-- CONSTRUCT with a code above 3 answers `UnknownAlgorithm` and changes nothing; with 0 to 3 it
leaves every register and memory zero, but `ALG`, which takes the algorithm of the code, the block buffer having the
algorithm's `BLOCK_WORDS` words; `HALTED`, the streams and the cursors are kept but for the response
(40_keystream_engine.md R120, R121, 10_state.md R32, 70_reset_and_hazards.md R281; the spec's own decisions D4, D9, D11). That
`B` holds sixteen words for `NONE` is the model's (log 4). -/
def Obligations.ConstructReleasesAndSelects : Prop :=
  ∀ (alg : Byte) (s : State),
    (3 < alg.toNat → exec (.construct alg) s = .next (answered [0x12] s)) ∧
    (∀ c words, (alg = 0 ∧ c = none ∧ words = 16) ∨ (alg = 1 ∧ c = some (.arx .salsa20) ∧ words = 16) ∨
        (alg = 2 ∧ c = some (.arx .chacha20) ∧ words = 16) ∨ (alg = 3 ∧ c = some .hc256 ∧ words = Config.hcBlockWords) →
      exec (.construct alg) s = .next (answered [0x00]
        { ALG := c, READY := false, HALTED := s.HALTED, BLOCKINDEX := 0, BLOCKOFFSET := 0
          K := RegFile.fill 8 0, IVB := RegFile.fill 32 0, B := List.replicate words 0
          X := RegFile.fill 16 0, S := RegFile.fill 16 0
          tab := { P := RegFile.fill 1024 0, Q := RegFile.fill 1024 0, IDX := 0 }
          W := RegFile.fill 2660 0, cmd := s.cmd, cc := s.cc, rsp := s.rsp, rc := s.rc, RESET := s.RESET }))

/-- An INIT whose checks pass stores the key as little-endian words and the IV as given, and leaves the block at the position,
`READY` set, and nothing else changed; one whose checks fail answers the first error and changes nothing
(40_keystream_engine.md R122, 20_memory.md R63 a, 00_scope.md R10; the order of the checks is the spec's own decision D10). -/
def Obligations.InitStoresKeyAndPositions : Prop :=
  ∀ (key iv : List Byte) (pos : Pos) (s : State),
    (s.ALG = none → exec (.init key iv pos) s = .next (answered [0x10] s)) ∧
    (∀ c, s.ALG = some c →
      (key.length ≠ 32 → exec (.init key iv pos) s = .next (answered [0x01] s)) ∧
      (key.length = 32 → iv.length ≠ ivBytes c → exec (.init key iv pos) s = .next (answered [0x02] s)) ∧
      (key.length = 32 → iv.length = ivBytes c → c = .hc256 → pos ≠ 0 →
        exec (.init key iv pos) s = .next (answered [0x03] s)) ∧
      (key.length = 32 → iv.length = ivBytes c → (c = .hc256 → pos = 0) →
        ∃ (k : RegFile Word 8) (v : RegFile Byte 32),
          (∀ i : Fin 8, (k.read i).toNat =
            (key.getD (4 * i) 0).toNat + 2 ^ 8 * (key.getD (4 * i + 1) 0).toNat +
              2 ^ 16 * (key.getD (4 * i + 2) 0).toNat + 2 ^ 24 * (key.getD (4 * i + 3) 0).toNat) ∧
          (∀ i : Fin 32, i.val < ivBytes c → v.read i = iv.getD i 0) ∧
          (∀ i : Fin 32, ivBytes c ≤ i.val → v.read i = s.IVB.read i) ∧
          exec (.init key iv pos) s = .next (answered [0x00] (positioned Config.hcBlockWords c k v pos s))))

/-- SEEK on a ready engine leaves the block at the position, for every position of Salsa20 and ChaCha20 and for
position 0 of HC-256, and refuses any other position of HC-256; key and IV are kept; an engine
that is not ready answers `NotReady` (41_seekable.md R150; the spec's own decisions D8, D15). -/
def Obligations.SeekRepositionsTheEngine : Prop :=
  ∀ (pos : Pos) (s : State),
    (s.READY = false ∨ s.ALG = none → exec (.seek pos) s = .next (answered [0x11] s)) ∧
    (∀ c, s.READY = true → s.ALG = some c →
      (c = .hc256 → pos ≠ 0 → exec (.seek pos) s = .next (answered [0x03] s)) ∧
      ((c = .hc256 → pos = 0) →
        exec (.seek pos) s = .next (answered [0x00] (positioned Config.hcBlockWords c s.K s.IVB pos s))))

/-- SEEK to 0 on a ready HC-256 engine leaves the engine a fresh INIT with the key and IV it holds leaves (41_seekable.md R151,
the spec's own decision D15). -/
def Obligations.SeekZeroRestartsHc256 : Prop :=
  ∀ (key iv : List Byte) (s u t : State),
    s.ALG = some .hc256 → key.length = 32 → iv.length = 32 → exec (.init key iv 0) s = .next u →
    t.READY = true → t.ALG = some .hc256 → t.K = u.K → t.IVB = u.IVB →
    ∃ v, exec (.seek 0) t = .next v ∧
      v.ALG = u.ALG ∧ v.READY = u.READY ∧ v.BLOCKINDEX = u.BLOCKINDEX ∧ v.BLOCKOFFSET = u.BLOCKOFFSET ∧
      v.K = u.K ∧ v.IVB = u.IVB ∧ v.B = u.B ∧ v.tab = u.tab ∧ v.W = u.W

/-- APPLY answers `NotReady` on an engine that is not ready; on a ready one it answers OK, and each input
byte in turn appends its XOR with the block's byte at `BLOCKOFFSET`, the least significant byte of each word first, and moves
one byte on, into the next block as soon as the offset reaches the block size (40_keystream_engine.md R123 to R125, 20_memory.md
R63 e, 00_scope.md R11; the spec's own decisions D8, D16). -/
def Obligations.ApplyXorsTheKeystream : Prop :=
  ∀ s : State,
    (s.READY = false ∨ s.ALG = none → ∀ data, exec (.apply data) s = .next (answered [0x11] s)) ∧
    (∀ c, s.READY = true → s.ALG = some c →
      exec (.apply []) s = .next (answered [0x00] s) ∧
      ∀ data, ∃ t, exec (.apply data) s = .next t ∧
        ∀ (b : Byte) (w : Word), t.B[t.BLOCKOFFSET / 4]? = some w →
          exec (.apply (data ++ [b])) s = .next (answered
            [b ^^^ BitVec.ofNat 8 (w.toNat / 2 ^ (8 * (t.BLOCKOFFSET % 4)))]
            (if t.BLOCKOFFSET + 1 = blockBytes Config.hcBlockWords c then atNextBlock Config.hcBlockWords c t
             else { t with BLOCKOFFSET := t.BLOCKOFFSET + 1 })))

/-- GETPOS answers the position as eight bytes, least significant first, and changes nothing; an engine that is not ready
answers `NotReady` (40_keystream_engine.md R127; the spec's own decisions D8, D16). -/
def Obligations.GetposReportsThePosition : Prop :=
  ∀ s : State,
    (s.READY = false ∨ s.ALG = none → exec .getpos s = .next (answered [0x11] s)) ∧
    (∀ c, s.READY = true → s.ALG = some c →
      exec .getpos s = .next (answered (0x00 :: (List.range 8).map fun k =>
        BitVec.ofNat 8 ((s.BLOCKINDEX.toNat * blockBytes Config.hcBlockWords c + s.BLOCKOFFSET) % 2 ^ 64 / 2 ^ (8 * k))) s))

/-- GETIV answers the IV's length and its bytes in order, and changes nothing; an engine that is not ready answers `NotReady`
(40_keystream_engine.md R128; the spec's own decisions D8, D24). -/
def Obligations.GetivReportsTheIV : Prop :=
  ∀ s : State,
    (s.READY = false ∨ s.ALG = none → exec .getiv s = .next (answered [0x11] s)) ∧
    (∀ a, s.READY = true → s.ALG = some (.arx a) →
      exec .getiv s = .next (answered (0x00 :: 8 :: ((List.finRange 32).take 8).map s.IVB.read) s)) ∧
    (s.READY = true → s.ALG = some .hc256 →
      exec .getiv s = .next (answered (0x00 :: 32 :: (List.finRange 32).map s.IVB.read) s))

/-- GETPOS's number after INIT or SEEK to `p` is `p`, and an APPLY of `k` bytes moves it on by `k`, modulo 2^64
(10_state.md R28, 40_keystream_engine.md R127, which derives it; the reduction is decision D16). -/
def Obligations.PositionCountsBytes : Prop :=
  (∀ (c : Cipher) (key iv : List Byte) (pos : Pos) (s : State),
    s.ALG = some c → key.length = 32 → iv.length = ivBytes c → (c = .hc256 → pos = 0) →
    ∃ t, exec (.init key iv pos) s = .next t ∧ positionView Config.hcBlockWords c t = pos) ∧
  (∀ (c : Cipher) (pos : Pos) (s : State), s.READY = true → s.ALG = some c → (c = .hc256 → pos = 0) →
    ∃ t, exec (.seek pos) s = .next t ∧ positionView Config.hcBlockWords c t = pos) ∧
  (∀ (c : Cipher) (data : List Byte) (s : State), s.READY = true → s.ALG = some c →
    s.BLOCKOFFSET < blockBytes Config.hcBlockWords c →
    ∃ t, exec (.apply data) s = .next t ∧ t.BLOCKOFFSET < blockBytes Config.hcBlockWords c ∧
      positionView Config.hcBlockWords c t = positionView Config.hcBlockWords c s + BitVec.ofNat 64 data.length)

/-- Which commands write which register: `ALG` is written only by CONSTRUCT (R22); `READY` is set only by INIT and cleared
only by CONSTRUCT (R23); `K` and `IVB` are written only by INIT and CONSTRUCT (R30, R31); the tables, the cursor and the
scratch memory are never written while the engine is Salsa20 or ChaCha20, but by CONSTRUCT (R29, R35); and no command touches
`HALTED`, the command stream, `cc` or the reset input (R24, R26). -/
def Obligations.RegistersHaveOnlyTheirWriters : Prop :=
  ∀ (i : Instr) (s t : State), exec i s = .next t →
    t.HALTED = s.HALTED ∧ t.cmd = s.cmd ∧ t.cc = s.cc ∧ t.RESET = s.RESET ∧
    ((∀ alg, i ≠ .construct alg) → t.ALG = s.ALG ∧ (s.READY = true → t.READY = true)) ∧
    ((∀ key iv pos, i ≠ .init key iv pos) → s.READY = false → t.READY = false) ∧
    ((∀ alg, i ≠ .construct alg) → (∀ key iv pos, i ≠ .init key iv pos) → t.K = s.K ∧ t.IVB = s.IVB) ∧
    ((∀ alg, i ≠ .construct alg) → s.ALG ≠ some .hc256 → t.tab = s.tab ∧ t.W = s.W)

/-- No command but APPLY lets the host see the key, the block or the tables: what CONSTRUCT, INIT, SEEK, GETPOS and GETIV
answer depends only on `ALG`, `READY`, the position registers and the IV (10_state.md R30, R36, 60_exceptions.md R255). -/
def Obligations.OnlyApplyShowsSecrets : Prop :=
  ∀ (i : Instr) (s t : State), (∀ data, i ≠ .apply data) →
    s.ALG = t.ALG → s.READY = t.READY → s.BLOCKINDEX = t.BLOCKINDEX → s.BLOCKOFFSET = t.BLOCKOFFSET → s.IVB = t.IVB →
    ∃ out s' t', exec i s = .next s' ∧ exec i t = .next t' ∧ s'.rsp = s.rsp ++ out ∧ t'.rsp = t.rsp ++ out

/-- The engine after an APPLY depends on the number of input bytes, not on their values, and each output byte depends on its
own input byte only (20_memory.md R68 c). -/
def Obligations.ApplyTreatsBytesSeparately : Prop :=
  ∀ (s : State) (d e : List Byte), s.READY = true → s.ALG ≠ none → d.length = e.length →
    ∃ (t u : State) (dout eout : List Byte),
      exec (.apply d) s = .next t ∧ exec (.apply e) s = .next u ∧
      t.rsp = s.rsp ++ 0x00 :: dout ∧ u.rsp = s.rsp ++ 0x00 :: eout ∧
      dout.length = d.length ∧ t = { u with rsp := t.rsp } ∧
      List.zipWith (· ^^^ ·) dout d = List.zipWith (· ^^^ ·) eout e

/-! ## Salsa20 and ChaCha20 -/

/-- R180: the Salsa20 lane layout. The constants are the numbers of R167, the IV words the little-endian words of 20_memory.md
R63 b. -/
def Obligations.SalsaLanesAreLaidOut : Prop :=
  ∀ s : State,
    let byte := fun i : Nat => (s.IVB.read (Fin.ofNat 32 i)).toNat
    let iv := fun i : Nat => BitVec.ofNat 32
      (byte (4 * i) + 2 ^ 8 * byte (4 * i + 1) + 2 ^ 16 * byte (4 * i + 2) + 2 ^ 24 * byte (4 * i + 3))
    (initBlock .salsa20 s).S.elems =
    [0x61707865, s.K.read 0, s.K.read 1, s.K.read 2,
     s.K.read 3, 0x3320646e, iv 0, iv 1,
     BitVec.ofNat 32 s.BLOCKINDEX.toNat, BitVec.ofNat 32 (s.BLOCKINDEX.toNat / 2 ^ 32), 0x79622d32, s.K.read 4,
     s.K.read 5, s.K.read 6, s.K.read 7, 0x6b206574]

/-- R195: the ChaCha20 lane layout. The constants are the numbers of R167, the IV words the little-endian words of 20_memory.md
R63 b. -/
def Obligations.ChachaLanesAreLaidOut : Prop :=
  ∀ s : State,
    let byte := fun i : Nat => (s.IVB.read (Fin.ofNat 32 i)).toNat
    let iv := fun i : Nat => BitVec.ofNat 32
      (byte (4 * i) + 2 ^ 8 * byte (4 * i + 1) + 2 ^ 16 * byte (4 * i + 2) + 2 ^ 24 * byte (4 * i + 3))
    (initBlock .chacha20 s).S.elems =
    [0x61707865, 0x3320646e, 0x79622d32, 0x6b206574,
     s.K.read 0, s.K.read 1, s.K.read 2, s.K.read 3,
     s.K.read 4, s.K.read 5, s.K.read 6, s.K.read 7,
     BitVec.ofNat 32 s.BLOCKINDEX.toNat, BitVec.ofNat 32 (s.BLOCKINDEX.toNat / 2 ^ 32), iv 0, iv 1]

/-- The Salsa20 quarter-round in the published notation of 43_salsa20.md R181, on four distinct lanes; the other lanes are
kept. Which lanes each step reads is general knowledge, not the source's (log 7). -/
def Obligations.SalsaQuarterRound : Prop :=
  ∀ (a b c d : Fin 16) (l : Lanes), a ≠ b → a ≠ c → a ≠ d → b ≠ c → b ≠ d → c ≠ d →
    let z1 := l.read b ^^^ (l.read a + l.read d).rotateLeft 7
    let z2 := l.read c ^^^ (z1 + l.read a).rotateLeft 9
    let z3 := l.read d ^^^ (z2 + z1).rotateLeft 13
    let z0 := l.read a ^^^ (z3 + z2).rotateLeft 18
    (salsaQR ⟨a, b, c, d⟩ l).read a = z0 ∧ (salsaQR ⟨a, b, c, d⟩ l).read b = z1 ∧
    (salsaQR ⟨a, b, c, d⟩ l).read c = z2 ∧ (salsaQR ⟨a, b, c, d⟩ l).read d = z3 ∧
    ∀ i, i ≠ a → i ≠ b → i ≠ c → i ≠ d → (salsaQR ⟨a, b, c, d⟩ l).read i = l.read i

/-- R196: the ChaCha20 quarter-round, on four distinct lanes; the other lanes are kept. -/
def Obligations.ChachaQuarterRound : Prop :=
  ∀ (a b c d : Fin 16) (l : Lanes), a ≠ b → a ≠ c → a ≠ d → b ≠ c → b ≠ d → c ≠ d →
    let a1 := l.read a + l.read b
    let d1 := (l.read d ^^^ a1).rotateLeft 16
    let c1 := l.read c + d1
    let b1 := (l.read b ^^^ c1).rotateLeft 12
    let a2 := a1 + b1
    let d2 := (d1 ^^^ a2).rotateLeft 8
    let c2 := c1 + d2
    let b2 := (b1 ^^^ c2).rotateLeft 7
    (chachaQR ⟨a, b, c, d⟩ l).read a = a2 ∧ (chachaQR ⟨a, b, c, d⟩ l).read b = b2 ∧
    (chachaQR ⟨a, b, c, d⟩ l).read c = c2 ∧ (chachaQR ⟨a, b, c, d⟩ l).read d = d2 ∧
    ∀ i, i ≠ a → i ≠ b → i ≠ c → i ≠ d → (chachaQR ⟨a, b, c, d⟩ l).read i = l.read i

/-- The double round of each cipher is its quarter-round on the eight quadruples of 43_salsa20.md R182 to R184 and of
44_chacha20.md R197 to R199, in that order. The four quadruples of a round partition the sixteen lanes; a quarter-round keeps
every other lane and its four results depend on its four lanes only; so the four may be done in any order (42_arx_family.md
R171, which derives it). The quadruples of Salsa20 are general knowledge, not the source's (PRESUMED, log 7). -/
def Obligations.QuarterRoundsOfARoundCommute : Prop :=
  ∀ a : Arx,
    let qr : Quad → Lanes → Lanes := match a with
      | .salsa20 => salsaQR
      | .chacha20 => chachaQR
    let round := fun (quads : List Quad) (l : Lanes) => quads.foldl (fun l q => qr q l) l
    let first : List Quad := match a with
      | .salsa20 => [⟨0, 4, 8, 12⟩, ⟨5, 9, 13, 1⟩, ⟨10, 14, 2, 6⟩, ⟨15, 3, 7, 11⟩]
      | .chacha20 => [⟨0, 4, 8, 12⟩, ⟨1, 5, 9, 13⟩, ⟨2, 6, 10, 14⟩, ⟨3, 7, 11, 15⟩]
    let second : List Quad := match a with
      | .salsa20 => [⟨0, 1, 2, 3⟩, ⟨5, 6, 7, 4⟩, ⟨10, 11, 8, 9⟩, ⟨15, 12, 13, 14⟩]
      | .chacha20 => [⟨0, 5, 10, 15⟩, ⟨1, 6, 11, 12⟩, ⟨2, 7, 8, 13⟩, ⟨3, 4, 9, 14⟩]
    (∀ l, doubleRound a l = round second (round first l)) ∧
    ∀ quads : List Quad, quads = first ∨ quads = second →
      (∀ i : Fin 16, (quads.flatMap fun q => [q.a, q.b, q.c, q.d]).count i = 1) ∧
      (∀ q ∈ quads, ∀ (l : Lanes) (i : Fin 16), i ∉ [q.a, q.b, q.c, q.d] → (qr q l).read i = l.read i) ∧
      (∀ q ∈ quads, ∀ l m : Lanes, (∀ i ∈ [q.a, q.b, q.c, q.d], l.read i = m.read i) →
        ∀ i ∈ [q.a, q.b, q.c, q.d], (qr q l).read i = (qr q m).read i) ∧
      (∀ other : List Quad, other.Perm quads → ∀ l, round other l = round quads l)

/-- The double round of each cipher loses nothing: it is a permutation of the lane states, "each step is invertible"
(42_arx_family.md R169). -/
def Obligations.DoubleRoundIsInvertible : Prop :=
  ∀ a : Arx, Function.Bijective (doubleRound a)

/-- R165: the block is a function of key, IV words and block index alone: `streamBlock` writes `B` to ten double rounds of the
lanes plus the lanes, clears the scratch lanes, keeps everything else, and gives the same block again. -/
def Obligations.StreamBlockIsAFunctionOfKeyIvIndex : Prop :=
  ∀ (a : Arx) (s : State),
    streamBlock a s = { s with
      B := arxBlock a s.K s.IVB s.BLOCKINDEX, X := RegFile.fill 16 0, S := RegFile.fill 16 0 } ∧
    streamBlock a (streamBlock a s) = streamBlock a s ∧
    (∀ t : State, t.K = s.K → t.BLOCKINDEX = s.BLOCKINDEX → (∀ i : Fin 32, i.val < 8 → t.IVB.read i = s.IVB.read i) →
      (streamBlock a t).B = (streamBlock a s).B)

/-! ## HC-256 -/

/-- R62: a word of `P`, `Q` or `W` reads as the value of the most recent write to it, or as the zero that reset and CONSTRUCT
leave if there was none; a write has no effect on any other word. -/
def Obligations.MemoryHoldsWhatWasWritten : Prop :=
  (∀ (n : Nat) (writes : List (Fin n × Word)) (i : Fin n),
    (writes.foldl (fun m w => m.write w.1 w.2) (RegFile.fill n 0)).read i =
      ((writes.reverse.find? fun w => w.1 = i).map fun w => w.2).getD 0) ∧
  (∀ (n : Nat) (m : RegFile Word n) (i j : Fin n) (v : Word), i ≠ j → (m.write i v).read j = m.read j) ∧
  (State.reset.tab.P = RegFile.fill 1024 0 ∧ State.reset.tab.Q = RegFile.fill 1024 0 ∧
    State.reset.W = RegFile.fill 2660 0) ∧
  (∀ (alg : Byte) (s : State), alg.toNat ≤ 3 → ∃ t, exec (.construct alg) s = .next t ∧
    t.tab.P = RegFile.fill 1024 0 ∧ t.tab.Q = RegFile.fill 1024 0 ∧ t.W = RegFile.fill 2660 0)

/-- R216, R217: one step writes one word of one table, chosen by the cursor, from the words the rules name, returns the
output that uses the new word, and advances the cursor modulo 2048; every other table word is kept. Indices are the masked
differences of R61. -/
def Obligations.HcStepUpdatesOneWord : Prop :=
  ∀ t : TableState,
    let j := t.IDX.toNat % 1024
    let at' := fun (T : Table) (i : Nat) => T.read (Fin.ofNat 1024 i)
    let here : Fin 1024 := Fin.ofNat 1024 j
    (hcStep t).2.IDX.toNat = (t.IDX.toNat + 1) % 2048 ∧
    (t.IDX.toNat < 1024 →
      let new := at' t.P j + at' t.P ((j + 1014) % 1024) + g1 t (at' t.P ((j + 1021) % 1024)) (at' t.P ((j + 1) % 1024))
      (hcStep t).2.P.read here = new ∧ (∀ i, i ≠ here → (hcStep t).2.P.read i = t.P.read i) ∧ (hcStep t).2.Q = t.Q ∧
      (hcStep t).1 = h1 t (at' t.P ((j + 1012) % 1024)) ^^^ new) ∧
    (1024 ≤ t.IDX.toNat →
      let new := at' t.Q j + at' t.Q ((j + 1014) % 1024) + g2 t (at' t.Q ((j + 1021) % 1024)) (at' t.Q ((j + 1) % 1024))
      (hcStep t).2.Q.read here = new ∧ (∀ i, i ≠ here → (hcStep t).2.Q.read i = t.Q.read i) ∧ (hcStep t).2.P = t.P ∧
      (hcStep t).1 = h2 t (at' t.Q ((j + 1012) % 1024)) ^^^ new)

/-- The `Q` step is the mirror image of the `P` step: exchanging the tables and moving the cursor by half a cycle
exchanges the steps (45_hc256.md R217). -/
def Obligations.QStepMirrorsPStep : Prop :=
  ∀ t : TableState,
    let swap := fun u : TableState => ({ P := u.Q, Q := u.P, IDX := u.IDX + 1024 } : TableState)
    hcStep (swap t) = ((hcStep t).1, swap (hcStep t).2)

/-- R210, R211, and the functions of R212 to R215: `g1` and `g2` read one word at the low ten bits of `x ^ y`, `h1` and `h2`
one word from each quarter of their table, chosen by the byte of that lane. -/
def Obligations.SixFunctionsOfHc256 : Prop :=
  ∀ (t : TableState) (x y : Word),
    let at' := fun (T : Table) (i : Nat) => T.read (Fin.ofNat 1024 i)
    let byte := fun k : Nat => x.toNat / 2 ^ (8 * k) % 256
    f1 x = x.rotateRight 7 ^^^ x.rotateRight 18 ^^^ BitVec.ofNat 32 (x.toNat / 2 ^ 3) ∧
    f2 x = x.rotateRight 17 ^^^ x.rotateRight 19 ^^^ BitVec.ofNat 32 (x.toNat / 2 ^ 10) ∧
    g1 t x y = (x.rotateRight 10 ^^^ y.rotateRight 23) + at' t.Q ((x ^^^ y).toNat % 1024) ∧
    g2 t x y = (x.rotateRight 10 ^^^ y.rotateRight 23) + at' t.P ((x ^^^ y).toNat % 1024) ∧
    h1 t x = at' t.Q (byte 0) + at' t.Q (256 + byte 1) + at' t.Q (512 + byte 2) + at' t.Q (768 + byte 3) ∧
    h2 t x = at' t.P (byte 0) + at' t.P (256 + byte 1) + at' t.P (512 + byte 2) + at' t.P (768 + byte 3)

/-- R220, R221: the expanded scratch memory holds the key words, the IV words (little-endian from the IV bytes, 20_memory.md R63
b), and then words that meet the recurrence, whatever it held before; nothing else changes. -/
def Obligations.ExpansionMeetsTheRecurrence : Prop :=
  ∀ s : State,
    let w := fun i : Nat => (hcExpand s).W.read (Fin.ofNat 2660 i)
    let byte := fun i : Nat => (s.IVB.read (Fin.ofNat 32 i)).toNat
    (∀ i : Fin 8, w i.val = s.K.read i ∧ (w (8 + i.val)).toNat =
      byte (4 * i) + 2 ^ 8 * byte (4 * i + 1) + 2 ^ 16 * byte (4 * i + 2) + 2 ^ 24 * byte (4 * i + 3)) ∧
    (∀ i, 16 ≤ i → i < 2660 → w i = f2 (w (i - 2)) + w (i - 7) + f1 (w (i - 15)) + w (i - 16) + BitVec.ofNat 32 i) ∧
    hcExpand s = { s with W := (hcExpand s).W }

/-- R222: the tables are seeded from the scratch memory, which is then wiped; nothing else changes. -/
def Obligations.SeedingCopiesAndWipes : Prop :=
  ∀ s : State,
    (∀ i : Fin 1024, (hcSeed s).tab.P.read i = s.W.read (Fin.ofNat 2660 (512 + i.val)) ∧
      (hcSeed s).tab.Q.read i = s.W.read (Fin.ofNat 2660 (1536 + i.val))) ∧
    (∀ i, (hcSeed s).W.read i = 0) ∧
    hcSeed s = { s with tab := { (hcSeed s).tab with IDX := s.tab.IDX }, W := (hcSeed s).W }

/-- The initialization leaves tables that depend on the key and IV alone, the cursor at 0 after its 4096 discarded words, the
scratch memory wiped, and everything else as it was (45_hc256.md R219, R223, 10_state.md R29). -/
def Obligations.HcInitDependsOnKeyAndIvAlone : Prop :=
  ∀ s t : State, s.K = t.K → s.IVB = t.IVB →
    (hc256Init s).tab = (hc256Init t).tab ∧ (hc256Init s).tab.IDX = 0 ∧
    hc256Init s = { s with tab := (hc256Init s).tab, W := RegFile.fill 2660 0 }

/-- Generating any number of words moves the cursor on by that number modulo 2048 (45_hc256.md R218, which derives it,
10_state.md R29). -/
def Obligations.CursorCountsWordsModulo2048 : Prop :=
  ∀ (k : Nat) (t : TableState), (hcWords k t).1.length = k ∧ (hcWords k t).2.IDX.toNat = (t.IDX.toNat + k) % 2048

/-! ## Invariants -/

/-- The invariant of 10_state.md R38 holds at reset. -/
def Obligations.ResetMeetsTheEngineInvariant : Prop :=
  EngineInv Config.hcBlockWords State.reset

/-- The invariant of 10_state.md R38 (clauses a to e, with R37's look-ahead): from every state that meets it, every step leaves
a state that meets it. -/
def Obligations.StepKeepsTheEngineInvariant : Prop :=
  ∀ s t : State, EngineInv Config.hcBlockWords s → step s = .next t → EngineInv Config.hcBlockWords t

/-- The invariant of 10_state.md R38 survives each act of the host: appending command bytes, removing response bytes, asserting
reset (R20). That the host acts between steps, and that a reset it asserts leaves the engine as it is until the next step takes
it, are the model's (log 2). -/
def Obligations.HostKeepsTheEngineInvariant : Prop :=
  ∀ s : State, EngineInv Config.hcBlockWords s →
    (∀ bs, EngineInv Config.hcBlockWords (hostSend bs s)) ∧
    (∀ k, EngineInv Config.hcBlockWords (hostReceive k s).2) ∧
    EngineInv Config.hcBlockWords (hostReset s)

/-! ## Laws of the keystream -/

/-- APPLY on an engine at position `p` answers each input byte XOR the keystream byte at its position, leaves the engine
at `p + len`, holding the block there, and changes nothing else but the response. The position does not pass 2^64
(40_keystream_engine.md R129, which derives it, 70_reset_and_hazards.md R295). -/
def Obligations.ApplyOutputsTheKeystream : Prop :=
  ∀ (c : Cipher) (data : List Byte) (s : State),
    EngineInv Config.hcBlockWords s → s.READY = true → s.ALG = some c →
    holdsBlock Config.hcBlockWords c s s.BLOCKINDEX.toNat →
    absolutePosition Config.hcBlockWords c s + data.length ≤ 2 ^ 64 →
    ∃ t : State, exec (.apply data) s = .next t ∧
      t.rsp = s.rsp ++ 0x00 :: (data.zipIdx.map fun bi =>
        bi.1 ^^^ keystreamByte c s.K s.IVB (absolutePosition Config.hcBlockWords c s + bi.2)) ∧
      t.rc = s.rc + 1 + data.length ∧
      absolutePosition Config.hcBlockWords c t = absolutePosition Config.hcBlockWords c s + data.length ∧
      t.BLOCKOFFSET < blockBytes Config.hcBlockWords c ∧
      holdsBlock Config.hcBlockWords c t t.BLOCKINDEX.toNat ∧
      (c ≠ .hc256 → t.tab = s.tab) ∧
      t = { s with
        BLOCKINDEX := t.BLOCKINDEX, BLOCKOFFSET := t.BLOCKOFFSET, B := t.B, tab := t.tab, rsp := t.rsp, rc := t.rc }

/-- Two APPLYs with the parts of a message answer together what one APPLY with the whole answers, and leave the same
engine, for every algorithm, state and split point (40_keystream_engine.md R130, which derives it). -/
def Obligations.SplitApplyEqualsWholeApply : Prop :=
  ∀ (s : State) (m1 m2 : List Byte), s.READY = true → s.ALG ≠ none →
    ∃ (t1 t2 t : State) (out1 out2 : List Byte),
      exec (.apply m1) s = .next t1 ∧ t1.rsp = s.rsp ++ 0x00 :: out1 ∧ out1.length = m1.length ∧
      exec (.apply m2) t1 = .next t2 ∧ t2.rsp = t1.rsp ++ 0x00 :: out2 ∧ out2.length = m2.length ∧
      exec (.apply (m1 ++ m2)) s = .next t ∧ t.rsp = s.rsp ++ 0x00 :: (out1 ++ out2) ∧
      t2 = { t with rsp := t2.rsp, rc := t2.rc }

/-- Two engines of one algorithm, whatever their histories and their `HC_BLOCK_WORDS`, given the same key, IV and
position, answer the same output for the same input, and one decrypts what the other encrypts (40_keystream_engine.md
R131, which derives it). -/
def Obligations.RoundTripAndDeterminism : Prop :=
  ∀ (n m : Nat) (c : Cipher) (key iv : List Byte) (pos : Pos) (s t : State) (msg : List Byte),
    0 < n → 0 < m → s.ALG = some c → t.ALG = some c → key.length = 32 → iv.length = ivBytes c → (c = .hc256 → pos = 0) →
    let s1 := command n (.init key iv pos) s
    let t1 := command m (.init key iv pos) t
    ∃ out : List Byte,
      (command n (.apply msg) s1).rsp = s1.rsp ++ 0x00 :: out ∧
      (command m (.apply msg) t1).rsp = t1.rsp ++ 0x00 :: out ∧
      (command m (.apply out) t1).rsp = t1.rsp ++ 0x00 :: msg

/-- For Salsa20 and ChaCha20 a positional INIT leaves the state of INIT at 0 followed by SEEK; for HC-256 a nonzero
position is refused and nothing is stored (41_seekable.md R152, the spec's own decision D14). -/
def Obligations.PositionalInitIsInitThenSeek : Prop :=
  (∀ (a : Arx) (key iv : List Byte) (pos : Pos) (s : State),
    s.ALG = some (.arx a) → key.length = 32 → iv.length = 8 →
    ∃ t t0 t1, exec (.init key iv pos) s = .next t ∧ exec (.init key iv 0) s = .next t0 ∧ exec (.seek pos) t0 = .next t1 ∧
      t1 = { t with rsp := t1.rsp, rc := t1.rc } ∧
      t.BLOCKINDEX.toNat = pos.toNat / 64 ∧ t.BLOCKOFFSET = pos.toNat % 64 ∧
      t.B = arxBlock a t.K t.IVB t.BLOCKINDEX) ∧
  (∀ (key iv : List Byte) (pos : Pos) (s : State),
    s.ALG = some .hc256 → key.length = 32 → iv.length = 32 → pos ≠ 0 →
    exec (.init key iv pos) s = .next (answered [0x03] s))

/-- After INIT or SEEK at `p`, an APPLY of `len` zero bytes answers the keystream bytes from `p` on, which are the bytes
an engine started at 0 answers once its first `p` bytes are dropped (41_seekable.md R153, which derives it, within the premise
of R295). -/
def Obligations.SeekEquivalence : Prop :=
  ∀ (a : Arx) (key iv : List Byte) (pos : Pos) (len : Nat) (s : State),
    s.ALG = some (.arx a) → key.length = 32 → iv.length = 8 → pos.toNat + len ≤ 2 ^ 64 →
    ∃ (t0 t1 t2 u0 u1 u2 : State) (out out0 : List Byte),
      exec (.init key iv 0) s = .next t0 ∧ exec (.init key iv pos) s = .next t1 ∧ exec (.seek pos) t0 = .next t2 ∧
      exec (.apply (List.replicate len 0)) t1 = .next u1 ∧ u1.rsp = t1.rsp ++ 0x00 :: out ∧
      exec (.apply (List.replicate len 0)) t2 = .next u2 ∧ u2.rsp = t2.rsp ++ 0x00 :: out ∧
      exec (.apply (List.replicate (pos.toNat + len) 0)) t0 = .next u0 ∧ u0.rsp = t0.rsp ++ 0x00 :: out0 ∧
      out = out0.drop pos.toNat ∧
      out = (List.range len).map fun i => keystreamByte (.arx a) t0.K t0.IVB (pos.toNat + i)

/-- No response byte depends on `HC_BLOCK_WORDS`: two cores that differ only in it answer every list of commands alike, from
every state whose engine is not ready (45_hc256.md R226, which derives it, D13). -/
def Obligations.ResponsesDoNotDependOnHcBlockWords : Prop :=
  ∀ (n m : Nat) (is : List Instr) (s : State), 0 < n → 0 < m → s.READY = false →
    (runCommands n is s).rsp = (runCommands m is s).rsp

/-- What the registers and memories of an engine that is not ready hold is never observed: two such engines of one algorithm
answer every list of commands alike, whatever each of them holds (10_state.md R39, which derives it). -/
def Obligations.UnwrittenStateIsNeverObserved : Prop :=
  ∀ (is : List Instr) (s t : State), s.READY = false → t.READY = false → s.ALG = t.ALG →
    ∃ out, (runCommands Config.hcBlockWords is s).rsp = s.rsp ++ out ∧
      (runCommands Config.hcBlockWords is t).rsp = t.rsp ++ out

/-! ## The assembler -/

/-- What an assembled program is: the encodings of well-formed commands, so the decoder reads it back command by command; only a
key or an IV of more than 255 bytes keeps a line from being assembled (30_encoding.md R110, the spec's own decision D26; that a
line is data and not text is the model's, log 10). -/
def Obligations.AssembledProgramsAreCommands : Prop :=
  (∀ (lines : List AsmLine) (bytes : List Byte), assemble lines = some bytes →
    ∃ is, asmCommands lines = some is ∧ bytes = is.flatMap encode ∧ ∀ i ∈ is, i.wellFormed = true) ∧
  (∀ line : AsmLine, asmLine line = none ↔ ∃ key iv pos, line = .init key iv pos ∧
    (255 < (asmBytes key).length ∨ 255 < (asmBytes iv).length))

/-- The expansions of the pseudo-instructions; an APPLY of at most 2^32 - 1 bytes is one command, and a longer one is cut into
commands of at most that many bytes with the same bytes in order; where the cuts fall is not stated (30_encoding.md R111, the
spec's own decision D26; that a line is data and not text is the model's, log 10). -/
def Obligations.PseudoInstructionsExpand : Prop :=
  (∀ key iv, asmLine (.init key iv none) = asmLine (.init key iv (some 0))) ∧
  (∀ data, asmLine (.encrypt data) = asmLine (.apply data) ∧ asmLine (.decrypt data) = asmLine (.apply data) ∧
    asmLine (.update data) = asmLine (.apply data)) ∧
  (∀ n, asmLine (.keystream n) = asmLine (.apply (.zeros n))) ∧
  asmLine .release = asmLine (.construct (.name none)) ∧
  (∀ data, (asmBytes data).length < 2 ^ 32 → asmLine (.apply data) = some [.apply (asmBytes data)]) ∧
  (∀ data, ∃ parts : List (List Byte), asmLine (.apply data) = some (parts.map .apply) ∧ parts.flatten = asmBytes data ∧
    ∀ part ∈ parts, part.length ≤ 2 ^ 32 - 1)

/-- Cutting an APPLY into consecutive commands, however it is cut, gives the same output bytes, one status byte a command, and
the same engine (30_encoding.md R111, 40_keystream_engine.md R130, which derives it). -/
def Obligations.PartsOfAnApplyAnswerAlike : Prop :=
  ∀ (parts : List (List Byte)) (s : State), s.READY = true → s.ALG ≠ none →
    ∃ (outs : List (List Byte)) (t : State),
      outs.map List.length = parts.map List.length ∧
      exec (.apply parts.flatten) s = .next t ∧ t.rsp = s.rsp ++ 0x00 :: outs.flatten ∧
      (runCommands Config.hcBlockWords (parts.map .apply) s).rsp = s.rsp ++ outs.flatMap (fun out => 0x00 :: out) ∧
      t = { runCommands Config.hcBlockWords (parts.map .apply) s with rsp := t.rsp, rc := t.rc }

/-! ## Engines a host cannot tell apart -/

/-- Every command keeps the relation `Alike` and answers alike: engines that agree on `ALG` and `READY` and, when ready, on key,
IV and position, whatever else they hold and whatever their `HC_BLOCK_WORDS`, append the same bytes and still agree afterwards
(10_state.md R39, 40_keystream_engine.md R131, 45_hc256.md R226, which derive it; D13). -/
def Obligations.CommandsKeepEnginesAlike : Prop :=
  ∀ (n m : Nat) (i : Instr) (s t : State), 0 < n → 0 < m → Alike n m s t →
    ∃ out, (command n i s).rsp = s.rsp ++ out ∧ (command m i t).rsp = t.rsp ++ out ∧
      Alike n m (command n i s) (command m i t)
end

