-- ==== Sys2Proof/Laws/RegFile.lean ====
section
/-!
SUPPORT. Laws of register files and word memories: reads after writes (20_memory.md R62), and equality by elements.
-/

namespace Sys2Proof.Machine

theorem RegFile.read_eq_getElem {α : Type} {n : Nat} (f : RegFile α n) (i : Fin n) (h : i.val < f.elems.length) :
    f.read i = f.elems[i.val]'h := rfl

theorem RegFile.ext_read {α : Type} {n : Nat} {f g : RegFile α n} (h : ∀ i, f.read i = g.read i) : f = g := by
  obtain ⟨fe, hf⟩ := f
  obtain ⟨ge, hg⟩ := g
  have : fe = ge := by
    apply List.ext_getElem (hf.trans hg.symm)
    intro i hi _
    exact h ⟨i, hf ▸ hi⟩
  subst this
  rfl

theorem RegFile.read_write {α : Type} {n : Nat} (f : RegFile α n) (i j : Fin n) (v : α) :
    (f.write i v).read j = if i = j then v else f.read j := by
  simp only [RegFile.read, RegFile.write, List.get_eq_getElem, List.getElem_set, Fin.ext_iff]
  rfl

@[simp] theorem RegFile.read_write_same {α : Type} {n : Nat} (f : RegFile α n) (i : Fin n) (v : α) :
    (f.write i v).read i = v := by
  simp [RegFile.read_write]

theorem RegFile.read_write_other {α : Type} {n : Nat} (f : RegFile α n) {i j : Fin n} (v : α) (h : i ≠ j) :
    (f.write i v).read j = f.read j := by
  simp [RegFile.read_write, h]

@[simp] theorem RegFile.read_fill {α : Type} {n : Nat} (v : α) (i : Fin n) : (RegFile.fill n v).read i = v := by
  simp [RegFile.read, RegFile.fill]

@[simp] theorem RegFile.read_ofFn {α : Type} {n : Nat} (f : Fin n → α) (i : Fin n) : (RegFile.ofFn f).read i = f i := by
  simp only [RegFile.read, RegFile.ofFn, List.get_eq_getElem, List.getElem_ofFn]
  rfl

theorem RegFile.write_comm {α : Type} {n : Nat} (f : RegFile α n) {i j : Fin n} (v w : α) (h : i ≠ j) :
    (f.write i v).write j w = (f.write j w).write i v := by
  apply RegFile.ext_read
  intro k
  simp only [RegFile.read_write]
  split_ifs <;> simp_all

theorem RegFile.write_write {α : Type} {n : Nat} (f : RegFile α n) (i : Fin n) (v w : α) :
    (f.write i v).write i w = f.write i w := by
  apply RegFile.ext_read
  intro k
  simp only [RegFile.read_write]
  split_ifs <;> rfl

theorem RegFile.write_read_self {α : Type} {n : Nat} (f : RegFile α n) (i : Fin n) : f.write i (f.read i) = f := by
  apply RegFile.ext_read
  intro k
  simp only [RegFile.read_write]
  split_ifs with h
  · rw [h]
  · rfl

end Sys2Proof.Machine
end

