-- ==== Sys2Proof/Laws/Arx.lean ====
section
/-!
SUPPORT. Laws of the block function of the add-rotate-xor ciphers (42_arx_family.md).
-/

namespace Sys2Proof.Machine

open Sys2Proof.Safety

/-- All that `streamBlock` does (R165): `B` from the key, IV and block index, and the scratch lanes cleared. -/
theorem streamBlock_eq (a : Arx) (s : State) :
    streamBlock a s = { s with
      B := arxBlock a s.K s.IVB s.BLOCKINDEX, X := RegFile.fill 16 0, S := RegFile.fill 16 0 } := rfl

@[simp] theorem arxBlock_length (a : Arx) (k : RegFile Word 8) (iv : RegFile Byte 32) (index : BitVec 64) :
    (arxBlock a k iv index).length = 16 := by
  simp [arxBlock, RegFile.size]

/-- The lanes depend on the first eight IV bytes only (10_state.md R31). -/
theorem laneLayout_congr (a : Arx) (k : RegFile Word 8) {v w : RegFile Byte 32} (index : BitVec 64)
    (h : ∀ i : Fin 32, i.val < 8 → v.read i = w.read i) : laneLayout a k v index = laneLayout a k w index := by
  have hw : ∀ i : Fin 8, i.val < 2 → ivWord v i = ivWord w i := by
    intro i hi
    simp only [ivWord, packedWord]
    congr 1 <;> apply h <;> simp <;> omega
  have h0 := hw 0 (by decide)
  have h1 := hw 1 (by decide)
  cases a <;> simp only [laneLayout, salsaLayout, chachaLayout, h0, h1]

theorem arxBlock_congr (a : Arx) (k : RegFile Word 8) {v w : RegFile Byte 32} (index : BitVec 64)
    (h : ∀ i : Fin 32, i.val < 8 → v.read i = w.read i) : arxBlock a k v index = arxBlock a k w index := by
  simp only [arxBlock, laneLayout_congr a k index h]

theorem salsaStep_read (z x y : Fin 16) (r : Nat) (l : Lanes) (i : Fin 16) :
    (salsaStep z x y r l).read i = if z = i then l.read z ^^^ rotl (l.read x + l.read y) r else l.read i := by
  simp [salsaStep, RegFile.read_write]

/-- One step of a ChaCha20 line on three lanes, of which the first and third differ. -/
theorem chachaStep_read (x y z : Fin 16) (r : Nat) (l : Lanes) (hxz : x ≠ z) (i : Fin 16) :
    (chachaStep x y z r l).read i =
      if z = i then rotl (l.read z ^^^ (l.read x + l.read y)) r
      else if x = i then l.read x + l.read y else l.read i := by
  unfold chachaStep
  simp only [RegFile.read_write, if_neg hxz, if_true]
  split_ifs <;> simp_all

end Sys2Proof.Machine
end

