-- ==== Sys2Proof/Laws/Bits.lean ====
section
/-!
SUPPORT. Laws of byte order and rotation (00_scope.md R9 to R11, 20_memory.md R63).
-/

namespace Sys2Proof.Machine

@[simp] theorem leBytes_length (k v : Nat) : (leBytes k v).length = k := by
  induction k generalizing v with
  | zero => rfl
  | succ k ih => simp [leBytes, ih]

theorem leValue_lt (bs : List Byte) : leValue bs < 2 ^ (8 * bs.length) := by
  induction bs with
  | nil => simp [leValue]
  | cons b bs ih =>
    have hb := b.isLt
    have hpow : 2 ^ (8 * (bs.length + 1)) = 2 ^ 8 * 2 ^ (8 * bs.length) := by rw [← Nat.pow_add]; congr 1; omega
    simp only [leValue, List.length_cons, hpow]
    omega

theorem leValue_leBytes (k v : Nat) : leValue (leBytes k v) = v % 2 ^ (8 * k) := by
  induction k generalizing v with
  | zero => simp [leBytes, leValue, Nat.mod_one]
  | succ k ih =>
    have hpow : 2 ^ (8 * (k + 1)) = 2 ^ 8 * 2 ^ (8 * k) := by rw [← Nat.pow_add]; congr 1; omega
    simp only [leBytes, leValue, BitVec.toNat_ofNat, ih, hpow]
    rw [Nat.mod_mul]

theorem leBytes_leValue (bs : List Byte) : leBytes bs.length (leValue bs) = bs := by
  induction bs with
  | nil => rfl
  | cons b bs ih =>
    have hb := b.isLt
    have hdiv : (b.toNat + 2 ^ 8 * leValue bs) / 2 ^ 8 = leValue bs := by omega
    simp only [List.length_cons, leBytes, leValue, hdiv, ih]
    congr 1
    apply BitVec.eq_of_toNat_eq
    simp only [BitVec.toNat_ofNat]
    omega

/-- Byte `i` of the little-endian bytes of a number. -/
theorem leBytes_eq_map (k v : Nat) : leBytes k v = (List.range k).map fun i => BitVec.ofNat 8 (v / 2 ^ (8 * i)) := by
  induction k generalizing v with
  | zero => rfl
  | succ k ih =>
    rw [List.range_succ_eq_map]
    simp only [leBytes, ih, List.map_cons, List.map_map, Nat.mul_zero, Nat.pow_zero, Nat.div_one]
    congr 1
    apply List.map_congr_left
    intro i _
    simp only [Function.comp_apply, Nat.div_div_eq_div_mul, ← Nat.pow_add]
    congr 3
    omega

/-- R10 as arithmetic: packing loses nothing. -/
theorem le32_toNat (b0 b1 b2 b3 : Byte) :
    (le32 b0 b1 b2 b3).toNat = b0.toNat + 2 ^ 8 * b1.toNat + 2 ^ 16 * b2.toNat + 2 ^ 24 * b3.toNat := by
  have h0 := b0.isLt
  have h1 := b1.isLt
  have h2 := b2.isLt
  have h3 := b3.isLt
  simp only [le32, BitVec.toNat_ofNat]
  omega

/-- R11 as arithmetic: byte lane `k` is the word divided by `2 ^ (8 * k)`, modulo 256. -/
theorem byteOfWord_eq (w : Word) (k : Nat) : byteOfWord w k = BitVec.ofNat 8 (w.toNat / 2 ^ (8 * k)) := by
  apply BitVec.eq_of_toNat_eq
  have hmask : 0xff % 2 ^ 32 = 2 ^ 8 - 1 := rfl
  simp only [byteOfWord, shr, BitVec.toNat_setWidth, BitVec.toNat_and, BitVec.toNat_ushiftRight, BitVec.toNat_ofNat,
    Nat.shiftRight_eq_div_pow, hmask]
  rw [Nat.and_two_pow_sub_one_eq_mod, Nat.mod_mod]

/-- R9's left rotation is the library's. -/
theorem rotl_eq_rotateLeft (x : Word) (n : Nat) (h : n < 32) : rotl x n = x.rotateLeft n := by
  simp [rotl, BitVec.rotateLeft, BitVec.rotateLeftAux, Nat.mod_eq_of_lt h]

/-- R9's right rotation is the library's. -/
theorem rotr_eq_rotateRight (x : Word) (n : Nat) (h0 : 0 < n) (h : n < 32) : rotr x n = x.rotateRight n := by
  have hsub : 32 - (32 - n) = n := by omega
  simp only [rotr, rotl, hsub, BitVec.rotateRight, BitVec.rotateRightAux, Nat.mod_eq_of_lt h]
  exact BitVec.or_comm _ _

/-- A left rotation loses nothing. -/
theorem rotl_injective (n : Nat) (h : n < 32) : Function.Injective fun x : Word => rotl x n := by
  intro x y hxy
  simp only [rotl_eq_rotateLeft _ _ h] at hxy
  apply BitVec.eq_of_getLsbD_eq
  intro i hi
  have key := congrArg (fun w : Word => w.getLsbD ((i + n) % 32)) hxy
  simp only [BitVec.getLsbD_rotateLeft] at key
  by_cases hlt : i + n < 32
  · have e : (i + n) % 32 = i + n := Nat.mod_eq_of_lt hlt
    rw [e] at key
    simpa [hlt, Nat.mod_eq_of_lt h] using key
  · have e : (i + n) % 32 = i + n - 32 := by omega
    rw [e] at key
    have h1 : i + n - 32 < n % 32 := by omega
    have h2 : 32 - n % 32 + (i + n - 32) = i := by omega
    simpa [h1, h2] using key

end Sys2Proof.Machine
end

