-- ==== Sys2Proof/Laws/Hc256.lean ====
section
/-!
SUPPORT. Laws of HC-256 (45_hc256.md): the recurrence, the initialization, the block of words.
-/

namespace Sys2Proof.Machine

open Sys2Proof.Safety

/-- The words below the first index are kept. -/
theorem hcExtend_read_below (count i : Nat) (w : RegFile Word 2660) (hi : i + count ≤ 2660) (j : Fin 2660) (hj : j.val < i) :
    (hcExtend count i w).read j = w.read j := by
  induction count generalizing i w with
  | zero => rfl
  | succ count ih =>
    rw [hcExtend, ih (i + 1) _ (by omega) (by omega)]
    apply RegFile.read_write_other
    intro h
    have := congrArg Fin.val h
    simp only [Fin.val_ofNat] at this
    omega

/-- The recurrence at `i` reads only words below `i`. -/
theorem hcRecurrence_congr {w u : RegFile Word 2660} {i : Nat} (h16 : 16 ≤ i) (hi : i < 2660)
    (h : ∀ j : Fin 2660, j.val < i → w.read j = u.read j) : hcRecurrence w i = hcRecurrence u i := by
  have hat : ∀ k, 1 ≤ k → k ≤ 16 → w.read (Fin.ofNat 2660 (i - k)) = u.read (Fin.ofNat 2660 (i - k)) := by
    intro k hk hk'
    apply h
    simp only [Fin.val_ofNat]
    omega
  simp only [hcRecurrence, hat 2 (by omega) (by omega), hat 7 (by omega) (by omega), hat 15 (by omega) (by omega),
    hat 16 (by omega) (by omega)]

/-- Two scratch memories that agree below the first index are extended to the same memory. -/
theorem hcExtend_congr (count i : Nat) (w u : RegFile Word 2660) (h16 : 16 ≤ i) (hi : i + count = 2660)
    (h : ∀ j : Fin 2660, j.val < i → w.read j = u.read j) : hcExtend count i w = hcExtend count i u := by
  induction count generalizing i w u with
  | zero =>
    apply RegFile.ext_read
    intro j
    exact h j (by omega)
  | succ count ih =>
    simp only [hcExtend]
    apply ih (i + 1) _ _ (by omega) (by omega)
    intro j hj
    simp only [RegFile.read_write]
    split_ifs with hij
    · exact hcRecurrence_congr h16 (by omega) h
    · apply h
      have hne : j.val ≠ i := by
        intro he
        apply hij
        apply Fin.ext
        simp only [Fin.val_ofNat]
        omega
      omega

/-- Every extended word meets the recurrence on the extended memory (R221). -/
theorem hcExtend_recurrence (count i : Nat) (w : RegFile Word 2660) (h16 : 16 ≤ i) (hi : i + count ≤ 2660) (j : Fin 2660)
    (hj : i ≤ j.val) (hj' : j.val < i + count) :
    (hcExtend count i w).read j = hcRecurrence (hcExtend count i w) j.val := by
  induction count generalizing i w with
  | zero => omega
  | succ count ih =>
    simp only [hcExtend]
    by_cases he : j.val = i
    · have hje : Fin.ofNat 2660 i = j := by
        apply Fin.ext
        simp only [Fin.val_ofNat]
        omega
      rw [hcExtend_read_below count (i + 1) _ (by omega) j (by omega), hje, RegFile.read_write_same, ← he]
      apply hcRecurrence_congr (by omega) j.isLt
      intro k hk
      rw [hcExtend_read_below count (j.val + 1) _ (by omega) k (by omega)]
      exact (RegFile.read_write_other _ _ (by intro h; rw [h] at hk; omega)).symm
    · exact ih (i + 1) _ (by omega) (by omega) (by omega) (by omega)

/-- What the memory held does not reach the words the key and IV are loaded into. -/
theorem hcLoad_read_below (k : RegFile Word 8) (iv : RegFile Byte 32) (w u : RegFile Word 2660) (j : Fin 2660)
    (hj : j.val < 16) : (hcLoad k iv w).read j = (hcLoad k iv u).read j := by
  simp only [hcLoad, RegFile.read_ofFn]
  by_cases hk : j.val < 8
  · simp only [dif_pos hk]
  · have hv : j.val - 8 < 8 := by omega
    simp only [dif_neg hk, dif_pos hv]

/-- The expansion does not depend on what the scratch memory held. -/
theorem hcExtend_hcLoad (count i : Nat) (h16 : i = 16) (hi : i + count = 2660) (k : RegFile Word 8) (iv : RegFile Byte 32)
    (w u : RegFile Word 2660) : hcExtend count i (hcLoad k iv w) = hcExtend count i (hcLoad k iv u) :=
  hcExtend_congr count i _ _ (by omega) hi fun j hj => hcLoad_read_below k iv w u j (by omega)

/-- The tables right after the warm-up. -/
theorem hcTables_zero (k : RegFile Word 8) (iv : RegFile Byte 32) :
    hcTables k iv 0 = hcAdvance^[4096] (hcSeeded k iv) := by
  rw [hcTables, Function.iterate_zero_apply]

/-- All that `hc256_init` does (R219): the tables from the key and IV alone, and the scratch memory wiped. -/
theorem hc256Init_eq (s : State) :
    hc256Init s = { s with tab := hcTables s.K s.IVB 0, W := RegFile.fill 2660 0 } := by
  have hexp : hcExpand s = { s with W := hcExtend 2644 16 (hcLoad s.K s.IVB (RegFile.fill 2660 0)) } := by
    rw [hcExpand, hcExtend_hcLoad 2644 16 rfl rfl s.K s.IVB s.W (RegFile.fill 2660 0)]
  rw [hc256Init, hexp, hcTables_zero, hcSeeded]
  simp only [hcWarmUp, clearCursor, hcSeed]

/-- All that generating `n` words does (40_keystream_engine.md R126). -/
theorem hcWords_eq (n : Nat) (t : TableState) :
    hcWords n t = ((List.range n).map fun w => (hcStep (hcAdvance^[w] t)).1, hcAdvance^[n] t) := by
  induction n generalizing t with
  | zero => rfl
  | succ n ih =>
    have hadv : (hcStep t).2 = hcAdvance t := rfl
    simp only [hcWords, ih, hadv, List.range_succ_eq_map, List.map_cons, List.map_map, Function.iterate_succ_apply,
      Function.iterate_zero, id_eq, Function.comp_def, Nat.succ_eq_add_one]

theorem hcTables_add (k : RegFile Word 8) (iv : RegFile Byte 32) (m j : Nat) :
    hcAdvance^[j] (hcTables k iv m) = hcTables k iv (m + j) := by
  rw [hcTables, hcTables, ← Function.iterate_add_apply, Nat.add_comm]

/-- The `n` words from the tables of word `m` on are words `m` to `m + n - 1` of the keystream (R224). -/
theorem hcWords_hcTables (n : Nat) (k : RegFile Word 8) (iv : RegFile Byte 32) (m : Nat) :
    hcWords n (hcTables k iv m) = ((List.range n).map fun w => hcWord k iv (m + w), hcTables k iv (m + n)) := by
  simp only [hcWords_eq, hcTables_add, hcWord]

@[simp] theorem hcBlockAt_length (n : Nat) (k : RegFile Word 8) (iv : RegFile Byte 32) (m : Nat) :
    (hcBlockAt n k iv m).length = n := by
  simp [hcBlockAt]

/-- The first block after the initialization. -/
theorem hcWords_first (n : Nat) (k : RegFile Word 8) (iv : RegFile Byte 32) :
    hcWords n (hcTables k iv 0) = (hcBlockAt n k iv 0, hcTables k iv n) := by
  simp [hcWords_hcTables, hcBlockAt]

/-- The block after block `m`. -/
theorem hcWords_next (n : Nat) (k : RegFile Word 8) (iv : RegFile Byte 32) (m : Nat) :
    hcWords n (hcTables k iv (m * n)) = (hcBlockAt n k iv m, hcTables k iv ((m + 1) * n)) := by
  simp [hcWords_hcTables, hcBlockAt, Nat.add_mul]

end Sys2Proof.Machine
end

