-- ==== Sys2Proof/Laws/State.lean ====
section
/-!
SUPPORT. Each shared update of State, field by field.
-/

namespace Sys2Proof.Machine

@[simp] theorem rspWrite_ALG (bs : List Byte) (s : State) : (rspWrite bs s).ALG = s.ALG := rfl
@[simp] theorem rspWrite_READY (bs : List Byte) (s : State) : (rspWrite bs s).READY = s.READY := rfl
@[simp] theorem rspWrite_HALTED (bs : List Byte) (s : State) : (rspWrite bs s).HALTED = s.HALTED := rfl
@[simp] theorem rspWrite_BLOCKINDEX (bs : List Byte) (s : State) : (rspWrite bs s).BLOCKINDEX = s.BLOCKINDEX := rfl
@[simp] theorem rspWrite_BLOCKOFFSET (bs : List Byte) (s : State) : (rspWrite bs s).BLOCKOFFSET = s.BLOCKOFFSET := rfl
@[simp] theorem rspWrite_K (bs : List Byte) (s : State) : (rspWrite bs s).K = s.K := rfl
@[simp] theorem rspWrite_IVB (bs : List Byte) (s : State) : (rspWrite bs s).IVB = s.IVB := rfl
@[simp] theorem rspWrite_B (bs : List Byte) (s : State) : (rspWrite bs s).B = s.B := rfl
@[simp] theorem rspWrite_X (bs : List Byte) (s : State) : (rspWrite bs s).X = s.X := rfl
@[simp] theorem rspWrite_S (bs : List Byte) (s : State) : (rspWrite bs s).S = s.S := rfl
@[simp] theorem rspWrite_tab (bs : List Byte) (s : State) : (rspWrite bs s).tab = s.tab := rfl
@[simp] theorem rspWrite_W (bs : List Byte) (s : State) : (rspWrite bs s).W = s.W := rfl
@[simp] theorem rspWrite_cmd (bs : List Byte) (s : State) : (rspWrite bs s).cmd = s.cmd := rfl
@[simp] theorem rspWrite_cc (bs : List Byte) (s : State) : (rspWrite bs s).cc = s.cc := rfl
@[simp] theorem rspWrite_rsp (bs : List Byte) (s : State) : (rspWrite bs s).rsp = s.rsp ++ bs := rfl
@[simp] theorem rspWrite_rc (bs : List Byte) (s : State) : (rspWrite bs s).rc = s.rc + bs.length := rfl
@[simp] theorem rspWrite_RESET (bs : List Byte) (s : State) : (rspWrite bs s).RESET = s.RESET := rfl

@[simp] theorem consume_ALG (k : Nat) (rest : List Byte) (s : State) : (consume k rest s).ALG = s.ALG := rfl
@[simp] theorem consume_READY (k : Nat) (rest : List Byte) (s : State) : (consume k rest s).READY = s.READY := rfl
@[simp] theorem consume_HALTED (k : Nat) (rest : List Byte) (s : State) : (consume k rest s).HALTED = s.HALTED := rfl
@[simp] theorem consume_BLOCKINDEX (k : Nat) (rest : List Byte) (s : State) : (consume k rest s).BLOCKINDEX = s.BLOCKINDEX := rfl
@[simp] theorem consume_BLOCKOFFSET (k : Nat) (rest : List Byte) (s : State) : (consume k rest s).BLOCKOFFSET = s.BLOCKOFFSET := rfl
@[simp] theorem consume_K (k : Nat) (rest : List Byte) (s : State) : (consume k rest s).K = s.K := rfl
@[simp] theorem consume_IVB (k : Nat) (rest : List Byte) (s : State) : (consume k rest s).IVB = s.IVB := rfl
@[simp] theorem consume_B (k : Nat) (rest : List Byte) (s : State) : (consume k rest s).B = s.B := rfl
@[simp] theorem consume_X (k : Nat) (rest : List Byte) (s : State) : (consume k rest s).X = s.X := rfl
@[simp] theorem consume_S (k : Nat) (rest : List Byte) (s : State) : (consume k rest s).S = s.S := rfl
@[simp] theorem consume_tab (k : Nat) (rest : List Byte) (s : State) : (consume k rest s).tab = s.tab := rfl
@[simp] theorem consume_W (k : Nat) (rest : List Byte) (s : State) : (consume k rest s).W = s.W := rfl
@[simp] theorem consume_cmd (k : Nat) (rest : List Byte) (s : State) : (consume k rest s).cmd = rest := rfl
@[simp] theorem consume_cc (k : Nat) (rest : List Byte) (s : State) : (consume k rest s).cc = s.cc + k := rfl
@[simp] theorem consume_rsp (k : Nat) (rest : List Byte) (s : State) : (consume k rest s).rsp = s.rsp := rfl
@[simp] theorem consume_rc (k : Nat) (rest : List Byte) (s : State) : (consume k rest s).rc = s.rc := rfl
@[simp] theorem consume_RESET (k : Nat) (rest : List Byte) (s : State) : (consume k rest s).RESET = s.RESET := rfl

@[simp] theorem setReady_ALG (s : State) : (setReady s).ALG = s.ALG := rfl
@[simp] theorem setReady_READY (s : State) : (setReady s).READY = true := rfl
@[simp] theorem setReady_HALTED (s : State) : (setReady s).HALTED = s.HALTED := rfl
@[simp] theorem setReady_BLOCKINDEX (s : State) : (setReady s).BLOCKINDEX = s.BLOCKINDEX := rfl
@[simp] theorem setReady_BLOCKOFFSET (s : State) : (setReady s).BLOCKOFFSET = s.BLOCKOFFSET := rfl
@[simp] theorem setReady_K (s : State) : (setReady s).K = s.K := rfl
@[simp] theorem setReady_IVB (s : State) : (setReady s).IVB = s.IVB := rfl
@[simp] theorem setReady_B (s : State) : (setReady s).B = s.B := rfl
@[simp] theorem setReady_X (s : State) : (setReady s).X = s.X := rfl
@[simp] theorem setReady_S (s : State) : (setReady s).S = s.S := rfl
@[simp] theorem setReady_tab (s : State) : (setReady s).tab = s.tab := rfl
@[simp] theorem setReady_W (s : State) : (setReady s).W = s.W := rfl
@[simp] theorem setReady_cmd (s : State) : (setReady s).cmd = s.cmd := rfl
@[simp] theorem setReady_cc (s : State) : (setReady s).cc = s.cc := rfl
@[simp] theorem setReady_rsp (s : State) : (setReady s).rsp = s.rsp := rfl
@[simp] theorem setReady_rc (s : State) : (setReady s).rc = s.rc := rfl
@[simp] theorem setReady_RESET (s : State) : (setReady s).RESET = s.RESET := rfl

@[simp] theorem setPosition_ALG (n : Nat) (c : Cipher) (p : Pos) (s : State) : (setPosition n c p s).ALG = s.ALG := rfl
@[simp] theorem setPosition_READY (n : Nat) (c : Cipher) (p : Pos) (s : State) : (setPosition n c p s).READY = s.READY := rfl
@[simp] theorem setPosition_HALTED (n : Nat) (c : Cipher) (p : Pos) (s : State) : (setPosition n c p s).HALTED = s.HALTED := rfl
@[simp] theorem setPosition_BLOCKINDEX (n : Nat) (c : Cipher) (p : Pos) (s : State) : (setPosition n c p s).BLOCKINDEX = BitVec.ofNat 64 (p.toNat / blockBytes n c) := rfl
@[simp] theorem setPosition_BLOCKOFFSET (n : Nat) (c : Cipher) (p : Pos) (s : State) : (setPosition n c p s).BLOCKOFFSET = p.toNat % blockBytes n c := rfl
@[simp] theorem setPosition_K (n : Nat) (c : Cipher) (p : Pos) (s : State) : (setPosition n c p s).K = s.K := rfl
@[simp] theorem setPosition_IVB (n : Nat) (c : Cipher) (p : Pos) (s : State) : (setPosition n c p s).IVB = s.IVB := rfl
@[simp] theorem setPosition_B (n : Nat) (c : Cipher) (p : Pos) (s : State) : (setPosition n c p s).B = s.B := rfl
@[simp] theorem setPosition_X (n : Nat) (c : Cipher) (p : Pos) (s : State) : (setPosition n c p s).X = s.X := rfl
@[simp] theorem setPosition_S (n : Nat) (c : Cipher) (p : Pos) (s : State) : (setPosition n c p s).S = s.S := rfl
@[simp] theorem setPosition_tab (n : Nat) (c : Cipher) (p : Pos) (s : State) : (setPosition n c p s).tab = s.tab := rfl
@[simp] theorem setPosition_W (n : Nat) (c : Cipher) (p : Pos) (s : State) : (setPosition n c p s).W = s.W := rfl
@[simp] theorem setPosition_cmd (n : Nat) (c : Cipher) (p : Pos) (s : State) : (setPosition n c p s).cmd = s.cmd := rfl
@[simp] theorem setPosition_cc (n : Nat) (c : Cipher) (p : Pos) (s : State) : (setPosition n c p s).cc = s.cc := rfl
@[simp] theorem setPosition_rsp (n : Nat) (c : Cipher) (p : Pos) (s : State) : (setPosition n c p s).rsp = s.rsp := rfl
@[simp] theorem setPosition_rc (n : Nat) (c : Cipher) (p : Pos) (s : State) : (setPosition n c p s).rc = s.rc := rfl
@[simp] theorem setPosition_RESET (n : Nat) (c : Cipher) (p : Pos) (s : State) : (setPosition n c p s).RESET = s.RESET := rfl

@[simp] theorem release_ALG (s : State) : (release s).ALG = none := rfl
@[simp] theorem release_READY (s : State) : (release s).READY = false := rfl
@[simp] theorem release_HALTED (s : State) : (release s).HALTED = s.HALTED := rfl
@[simp] theorem release_BLOCKINDEX (s : State) : (release s).BLOCKINDEX = 0 := rfl
@[simp] theorem release_BLOCKOFFSET (s : State) : (release s).BLOCKOFFSET = 0 := rfl
@[simp] theorem release_K (s : State) : (release s).K = RegFile.fill 8 0 := rfl
@[simp] theorem release_IVB (s : State) : (release s).IVB = RegFile.fill 32 0 := rfl
@[simp] theorem release_B (s : State) : (release s).B = List.replicate 16 0 := rfl
@[simp] theorem release_X (s : State) : (release s).X = RegFile.fill 16 0 := rfl
@[simp] theorem release_S (s : State) : (release s).S = RegFile.fill 16 0 := rfl
@[simp] theorem release_tab (s : State) : (release s).tab = { P := RegFile.fill 1024 0, Q := RegFile.fill 1024 0, IDX := 0 } := rfl
@[simp] theorem release_W (s : State) : (release s).W = RegFile.fill 2660 0 := rfl
@[simp] theorem release_cmd (s : State) : (release s).cmd = s.cmd := rfl
@[simp] theorem release_cc (s : State) : (release s).cc = s.cc := rfl
@[simp] theorem release_rsp (s : State) : (release s).rsp = s.rsp := rfl
@[simp] theorem release_rc (s : State) : (release s).rc = s.rc := rfl
@[simp] theorem release_RESET (s : State) : (release s).RESET = s.RESET := rfl

@[simp] theorem selectAlg_ALG (n : Nat) (alg : Option Cipher) (s : State) : (selectAlg n alg s).ALG = alg := rfl
@[simp] theorem selectAlg_READY (n : Nat) (alg : Option Cipher) (s : State) : (selectAlg n alg s).READY = s.READY := rfl
@[simp] theorem selectAlg_HALTED (n : Nat) (alg : Option Cipher) (s : State) : (selectAlg n alg s).HALTED = s.HALTED := rfl
@[simp] theorem selectAlg_BLOCKINDEX (n : Nat) (alg : Option Cipher) (s : State) : (selectAlg n alg s).BLOCKINDEX = s.BLOCKINDEX := rfl
@[simp] theorem selectAlg_BLOCKOFFSET (n : Nat) (alg : Option Cipher) (s : State) : (selectAlg n alg s).BLOCKOFFSET = s.BLOCKOFFSET := rfl
@[simp] theorem selectAlg_K (n : Nat) (alg : Option Cipher) (s : State) : (selectAlg n alg s).K = s.K := rfl
@[simp] theorem selectAlg_IVB (n : Nat) (alg : Option Cipher) (s : State) : (selectAlg n alg s).IVB = s.IVB := rfl
@[simp] theorem selectAlg_B (n : Nat) (alg : Option Cipher) (s : State) : (selectAlg n alg s).B = zeroBlock n alg := rfl
@[simp] theorem selectAlg_X (n : Nat) (alg : Option Cipher) (s : State) : (selectAlg n alg s).X = s.X := rfl
@[simp] theorem selectAlg_S (n : Nat) (alg : Option Cipher) (s : State) : (selectAlg n alg s).S = s.S := rfl
@[simp] theorem selectAlg_tab (n : Nat) (alg : Option Cipher) (s : State) : (selectAlg n alg s).tab = s.tab := rfl
@[simp] theorem selectAlg_W (n : Nat) (alg : Option Cipher) (s : State) : (selectAlg n alg s).W = s.W := rfl
@[simp] theorem selectAlg_cmd (n : Nat) (alg : Option Cipher) (s : State) : (selectAlg n alg s).cmd = s.cmd := rfl
@[simp] theorem selectAlg_cc (n : Nat) (alg : Option Cipher) (s : State) : (selectAlg n alg s).cc = s.cc := rfl
@[simp] theorem selectAlg_rsp (n : Nat) (alg : Option Cipher) (s : State) : (selectAlg n alg s).rsp = s.rsp := rfl
@[simp] theorem selectAlg_rc (n : Nat) (alg : Option Cipher) (s : State) : (selectAlg n alg s).rc = s.rc := rfl
@[simp] theorem selectAlg_RESET (n : Nat) (alg : Option Cipher) (s : State) : (selectAlg n alg s).RESET = s.RESET := rfl

@[simp] theorem hostSend_ALG (bs : List Byte) (s : State) : (hostSend bs s).ALG = s.ALG := rfl
@[simp] theorem hostSend_READY (bs : List Byte) (s : State) : (hostSend bs s).READY = s.READY := rfl
@[simp] theorem hostSend_HALTED (bs : List Byte) (s : State) : (hostSend bs s).HALTED = s.HALTED := rfl
@[simp] theorem hostSend_BLOCKINDEX (bs : List Byte) (s : State) : (hostSend bs s).BLOCKINDEX = s.BLOCKINDEX := rfl
@[simp] theorem hostSend_BLOCKOFFSET (bs : List Byte) (s : State) : (hostSend bs s).BLOCKOFFSET = s.BLOCKOFFSET := rfl
@[simp] theorem hostSend_K (bs : List Byte) (s : State) : (hostSend bs s).K = s.K := rfl
@[simp] theorem hostSend_IVB (bs : List Byte) (s : State) : (hostSend bs s).IVB = s.IVB := rfl
@[simp] theorem hostSend_B (bs : List Byte) (s : State) : (hostSend bs s).B = s.B := rfl
@[simp] theorem hostSend_X (bs : List Byte) (s : State) : (hostSend bs s).X = s.X := rfl
@[simp] theorem hostSend_S (bs : List Byte) (s : State) : (hostSend bs s).S = s.S := rfl
@[simp] theorem hostSend_tab (bs : List Byte) (s : State) : (hostSend bs s).tab = s.tab := rfl
@[simp] theorem hostSend_W (bs : List Byte) (s : State) : (hostSend bs s).W = s.W := rfl
@[simp] theorem hostSend_cmd (bs : List Byte) (s : State) : (hostSend bs s).cmd = s.cmd ++ bs := rfl
@[simp] theorem hostSend_cc (bs : List Byte) (s : State) : (hostSend bs s).cc = s.cc := rfl
@[simp] theorem hostSend_rsp (bs : List Byte) (s : State) : (hostSend bs s).rsp = s.rsp := rfl
@[simp] theorem hostSend_rc (bs : List Byte) (s : State) : (hostSend bs s).rc = s.rc := rfl
@[simp] theorem hostSend_RESET (bs : List Byte) (s : State) : (hostSend bs s).RESET = s.RESET := rfl

/-- Two writes to the response stream are one. -/
theorem rspWrite_rspWrite (a b : List Byte) (s : State) : rspWrite b (rspWrite a s) = rspWrite (a ++ b) s := by
  simp [rspWrite, Nat.add_assoc]

@[simp] theorem zeroBlock_none (n : Nat) : zeroBlock n none = List.replicate 16 0 := rfl
@[simp] theorem zeroBlock_arx (n : Nat) (a : Arx) : zeroBlock n (some (.arx a)) = List.replicate 16 0 := rfl
@[simp] theorem zeroBlock_hc256 (n : Nat) : zeroBlock n (some .hc256) = List.replicate n 0 := rfl

/-- The zeroed block buffer is all zero, whatever the algorithm. -/
theorem eq_zero_of_mem_zeroBlock {n : Nat} {alg : Option Cipher} {w : Word} (h : w ∈ zeroBlock n alg) : w = 0 := by
  cases alg <;> exact List.eq_of_mem_replicate h

/-- Selecting `NONE` on a released engine changes nothing (40_keystream_engine.md R120). -/
theorem selectAlg_none_release (n : Nat) (s : State) : selectAlg n none (release s) = release s := rfl

/-- The reset event leaves the reset state, whatever state it finds (70_reset_and_hazards.md R280). -/
theorem takeReset_eq_reset (s : State) : takeReset s = State.reset := rfl

/-- `release` leaves everything of the reset state but what it does not touch (40_keystream_engine.md R121). -/
theorem release_eq_reset_with (s : State) :
    release s = { State.reset with
      HALTED := s.HALTED, cmd := s.cmd, cc := s.cc, rsp := s.rsp, rc := s.rc, RESET := s.RESET } := rfl

theorem readyCipher_eq_some {s : State} {c : Cipher} : readyCipher s = some c ↔ s.READY = true ∧ s.ALG = some c := by
  unfold readyCipher
  split_ifs with h <;> simp [h]

theorem readyCipher_eq_none {s : State} : readyCipher s = none ↔ s.READY = false ∨ s.ALG = none := by
  unfold readyCipher
  split_ifs with h <;> simp [h]

@[simp] theorem readyCipher_rspWrite (bs : List Byte) (s : State) : readyCipher (rspWrite bs s) = readyCipher s := rfl

end Sys2Proof.Machine
end

