-- ==== Sys2Proof/Laws/Keystream.lean ====
section
/-!
SUPPORT. Laws of the KeystreamEngine (40_keystream_engine.md R123 to R126): what computing a block, crossing a boundary and
applying bytes do, with the response stream taken apart from the engine.
-/

namespace Sys2Proof.Machine

open Sys2Proof.Safety

theorem hcBlock_eq (n : Nat) (s : State) :
    hcBlock n s = { s with
      B := (List.range n).map fun w => (hcStep (hcAdvance^[w] s.tab)).1, tab := hcAdvance^[n] s.tab } := by
  simp only [hcBlock, hcWords_eq]

/-- All that `crossBoundary` does (R125). -/
theorem crossBoundary_eq (n : Nat) (c : Cipher) (s : State) : crossBoundary n c s = atNextBlock n c s := by
  cases c with
  | arx a => rfl
  | hc256 => simp only [crossBoundary, computeBlock, hcBlock_eq, atNextBlock]

/-- All that the advance past one byte does (R124). -/
theorem advanceByte_eq (n : Nat) (c : Cipher) (s : State) :
    advanceByte n c s =
      if s.BLOCKOFFSET + 1 = blockBytes n c then atNextBlock n c s else { s with BLOCKOFFSET := s.BLOCKOFFSET + 1 } := by
  simp only [advanceByte, crossBoundary_eq]
  split_ifs
  · cases c <;> rfl
  · rfl

/-- The advance past one byte and the response stream do not touch. -/
theorem advanceByte_rspWrite (n : Nat) (c : Cipher) (bs : List Byte) (s : State) :
    advanceByte n c (rspWrite bs s) = rspWrite bs (advanceByte n c s) := by
  rw [advanceByte_eq, advanceByte_eq]
  by_cases h : s.BLOCKOFFSET + 1 = blockBytes n c
  · rw [if_pos h, if_pos (show (rspWrite bs s).BLOCKOFFSET + 1 = _ from h)]
    cases c <;> rfl
  · rw [if_neg h, if_neg (show ¬ (rspWrite bs s).BLOCKOFFSET + 1 = _ from h)]
    rfl

theorem iterate_advanceByte_rspWrite (n : Nat) (c : Cipher) (k : Nat) (bs : List Byte) (s : State) :
    (advanceByte n c)^[k] (rspWrite bs s) = rspWrite bs ((advanceByte n c)^[k] s) := by
  induction k generalizing s with
  | zero => rfl
  | succ k ih => simp only [Function.iterate_succ_apply, advanceByte_rspWrite, ih]

/-- The state with other streams: the part of the state the engine neither reads nor, but for its response, writes. -/
def withStreams (cmd : List Byte) (cc : Nat) (rsp : List Byte) (rc : Nat) (s : State) : State :=
  { s with cmd := cmd, cc := cc, rsp := rsp, rc := rc }

theorem advanceByte_withStreams (n : Nat) (c : Cipher) (cmd : List Byte) (cc : Nat) (rsp : List Byte) (rc : Nat) (s : State) :
    advanceByte n c (withStreams cmd cc rsp rc s) = withStreams cmd cc rsp rc (advanceByte n c s) := by
  rw [advanceByte_eq, advanceByte_eq]
  by_cases h : s.BLOCKOFFSET + 1 = blockBytes n c
  · rw [if_pos h, if_pos (show (withStreams cmd cc rsp rc s).BLOCKOFFSET + 1 = _ from h)]
    cases c <;> rfl
  · rw [if_neg h, if_neg (show ¬ (withStreams cmd cc rsp rc s).BLOCKOFFSET + 1 = _ from h)]
    rfl

theorem iterate_advanceByte_withStreams (n : Nat) (c : Cipher) (k : Nat) (cmd : List Byte) (cc : Nat) (rsp : List Byte)
    (rc : Nat) (s : State) :
    (advanceByte n c)^[k] (withStreams cmd cc rsp rc s) = withStreams cmd cc rsp rc ((advanceByte n c)^[k] s) := by
  induction k generalizing s with
  | zero => rfl
  | succ k ih => simp only [Function.iterate_succ_apply, advanceByte_withStreams, ih]

/-- The keystream byte the engine would use next (R124). -/
def nextByte (s : State) : Byte := blockByte s.B s.BLOCKOFFSET

@[simp] theorem nextByte_rspWrite (bs : List Byte) (s : State) : nextByte (rspWrite bs s) = nextByte s := rfl

/-- The output bytes of APPLY on data: each input byte with the keystream byte the engine then holds. -/
def outputBytes (n : Nat) (c : Cipher) : List Byte → State → List Byte
  | [], _ => []
  | b :: bs, s => (b ^^^ nextByte s) :: outputBytes n c bs (advanceByte n c s)

@[simp] theorem outputBytes_length (n : Nat) (c : Cipher) (data : List Byte) (s : State) :
    (outputBytes n c data s).length = data.length := by
  induction data generalizing s with
  | nil => rfl
  | cons b bs ih => simp [outputBytes, ih]

theorem outputBytes_append (n : Nat) (c : Cipher) (d1 d2 : List Byte) (s : State) :
    outputBytes n c (d1 ++ d2) s = outputBytes n c d1 s ++ outputBytes n c d2 ((advanceByte n c)^[d1.length] s) := by
  induction d1 generalizing s with
  | nil => rfl
  | cons b bs ih => simp only [List.cons_append, outputBytes, ih, List.length_cons, Function.iterate_succ_apply]

theorem outputBytes_rspWrite (n : Nat) (c : Cipher) (data bs : List Byte) (s : State) :
    outputBytes n c data (rspWrite bs s) = outputBytes n c data s := by
  induction data generalizing s with
  | nil => rfl
  | cons b data ih => simp only [outputBytes, nextByte_rspWrite, advanceByte_rspWrite, ih]

theorem outputBytes_withStreams (n : Nat) (c : Cipher) (data cmd : List Byte) (cc : Nat) (rsp : List Byte) (rc : Nat)
    (s : State) : outputBytes n c data (withStreams cmd cc rsp rc s) = outputBytes n c data s := by
  induction data generalizing s with
  | nil => rfl
  | cons b data ih =>
    simp only [outputBytes, advanceByte_withStreams, ih]
    rfl

/-- Applying the output of an engine again gives the data back (R131). -/
theorem outputBytes_outputBytes (n : Nat) (c : Cipher) (data : List Byte) (s : State) :
    outputBytes n c (outputBytes n c data s) s = data := by
  induction data generalizing s with
  | nil => rfl
  | cons b data ih => simp only [outputBytes, ih, BitVec.xor_assoc, BitVec.xor_self, BitVec.xor_zero]

theorem getElem?_outputBytes (n : Nat) (c : Cipher) (data : List Byte) (s : State) (i : Nat) :
    (outputBytes n c data s)[i]? = data[i]?.map fun b => b ^^^ nextByte ((advanceByte n c)^[i] s) := by
  induction data generalizing s i with
  | nil => simp [outputBytes]
  | cons b data ih => cases i <;> simp [outputBytes, ih]

/-- All that the loop of APPLY does (R123): its output bytes appended, and the engine advanced past as many bytes. -/
theorem applyBytes_eq (n : Nat) (c : Cipher) (data : List Byte) (s : State) :
    applyBytes n c data s = rspWrite (outputBytes n c data s) ((advanceByte n c)^[data.length] s) := by
  induction data generalizing s with
  | nil => simp [applyBytes, outputBytes, rspWrite]
  | cons b data ih =>
    simp only [applyBytes, applyByte, ih, outputBytes_rspWrite, iterate_advanceByte_rspWrite, rspWrite_rspWrite,
      outputBytes, List.length_cons, Function.iterate_succ_apply]
    rfl

/-- What advancing past bytes never changes. -/
theorem iterate_advanceByte_frame (n : Nat) (c : Cipher) (k : Nat) (s : State) :
    let t := (advanceByte n c)^[k] s
    t = { s with
      BLOCKINDEX := t.BLOCKINDEX, BLOCKOFFSET := t.BLOCKOFFSET, B := t.B, X := t.X, S := t.S, tab := t.tab } := by
  induction k generalizing s with
  | zero => rfl
  | succ k ih =>
    simp only [Function.iterate_succ_apply] at ih ⊢
    rw [ih (advanceByte n c s)]
    have h : advanceByte n c s = { s with
        BLOCKINDEX := (advanceByte n c s).BLOCKINDEX, BLOCKOFFSET := (advanceByte n c s).BLOCKOFFSET
        B := (advanceByte n c s).B, X := (advanceByte n c s).X, S := (advanceByte n c s).S
        tab := (advanceByte n c s).tab } := by
      rw [advanceByte_eq]
      split_ifs
      · cases c <;> rfl
      · rfl
    rw [h]

/-- The byte-by-byte advance keeps the offset inside the block (10_state.md R27). -/
theorem advanceByte_offset_lt {n : Nat} {c : Cipher} {s : State} (h : s.BLOCKOFFSET < blockBytes n c) :
    (advanceByte n c s).BLOCKOFFSET < blockBytes n c := by
  rw [advanceByte_eq]
  split_ifs with he
  · cases c <;> exact Nat.lt_of_le_of_lt (Nat.zero_le _) h
  · exact Nat.lt_of_le_of_ne h he

/-- The next block of a keystream is the block after the one held (10_state.md R38). -/
theorem holdsBlock_atNextBlock {n : Nat} {c : Cipher} {s : State} {m : Nat} (hidx : s.BLOCKINDEX = BitVec.ofNat 64 m)
    (h : holdsBlock n c s m) : holdsBlock n c (atNextBlock n c s) (m + 1) := by
  cases c with
  | arx a =>
    have : s.BLOCKINDEX + 1 = BitVec.ofNat 64 (m + 1) := by
      rw [hidx]
      apply BitVec.eq_of_toNat_eq
      simp
    simp only [holdsBlock, atNextBlock, this]
  | hc256 =>
    obtain ⟨-, htab⟩ := h
    simp only [holdsBlock, atNextBlock, htab, hcTables_add, hcBlockAt, hcWord]
    exact ⟨trivial, by congr 1; ring⟩

/-- One byte further in the same keystream. -/
theorem holdsBlock_advanceByte {n : Nat} {c : Cipher} {s : State} {m : Nat} (hidx : s.BLOCKINDEX = BitVec.ofNat 64 m)
    (h : holdsBlock n c s m) : ∃ m', (advanceByte n c s).BLOCKINDEX = BitVec.ofNat 64 m' ∧
      holdsBlock n c (advanceByte n c s) m' ∧
      m' * blockBytes n c + (advanceByte n c s).BLOCKOFFSET = m * blockBytes n c + s.BLOCKOFFSET + 1 := by
  rw [advanceByte_eq]
  split_ifs with he
  · refine ⟨m + 1, ?_, holdsBlock_atNextBlock hidx h, ?_⟩
    · have : (atNextBlock n c s).BLOCKINDEX = s.BLOCKINDEX + 1 := by cases c <;> rfl
      rw [this, hidx]
      apply BitVec.eq_of_toNat_eq
      simp
    · have : (atNextBlock n c s).BLOCKOFFSET = 0 := by cases c <;> rfl
      rw [this, Nat.add_mul, ← he]
      omega
  · refine ⟨m, hidx, ?_, rfl⟩
    cases c <;> exact h

/-- The keystream reads of the IV only the bytes the algorithm takes (10_state.md R31). -/
theorem keystreamByte_congr (c : Cipher) (k : RegFile Word 8) {v w : RegFile Byte 32} (q : Nat)
    (h : ∀ i : Fin 32, i.val < ivBytes c → v.read i = w.read i) : keystreamByte c k v q = keystreamByte c k w q := by
  cases c with
  | arx a => simp only [keystreamByte, keystreamWord, arxBlock_congr a k _ h]
  | hc256 =>
    have hvw : v = w := RegFile.ext_read fun i => h i i.isLt
    rw [hvw]

/-- The byte used next is the keystream byte at the position (R129). -/
theorem nextByte_eq_keystreamByte {n : Nat} {c : Cipher} {s : State} {m : Nat} (h : holdsBlock n c s m)
    (hoff : s.BLOCKOFFSET < blockBytes n c) :
    nextByte s = keystreamByte c s.K s.IVB (m * blockBytes n c + s.BLOCKOFFSET) := by
  cases c with
  | arx a =>
    have hoff' : s.BLOCKOFFSET < 64 := hoff
    have hdiv : (m * blockBytes n (.arx a) + s.BLOCKOFFSET) / 64 = m := by
      simp only [blockBytes, blockWords]; omega
    have hmod : (m * blockBytes n (.arx a) + s.BLOCKOFFSET) % 64 = s.BLOCKOFFSET := by
      simp only [blockBytes, blockWords]; omega
    have hB : s.B = arxBlock a s.K s.IVB (BitVec.ofNat 64 m) := h
    have hlane : (m * blockBytes n (.arx a) + s.BLOCKOFFSET) % 4 = s.BLOCKOFFSET % 4 := by
      simp only [blockBytes, blockWords]; omega
    have hget : s.B[s.BLOCKOFFSET / 4]? = some ((arxBlock a s.K s.IVB (BitVec.ofNat 64 m)).getD (s.BLOCKOFFSET / 4) 0) := by
      rw [hB, List.getD_eq_getElem _ _ (by rw [arxBlock_length]; omega)]
      exact List.getElem?_eq_getElem _
    simp only [nextByte, blockByte, keystreamByte, keystreamWord, hdiv, hmod, hlane, byteOfWord_eq,
      List.getD_eq_getElem?_getD, hget, Option.getD_some]
  | hc256 =>
    have hoff' : s.BLOCKOFFSET < 4 * n := hoff
    have hq : m * blockBytes n .hc256 + s.BLOCKOFFSET = 4 * (m * n) + s.BLOCKOFFSET := by
      simp only [blockBytes, blockWords]; ring
    have hdiv : (4 * (m * n) + s.BLOCKOFFSET) / 4 = m * n + s.BLOCKOFFSET / 4 := by omega
    have hmod : (4 * (m * n) + s.BLOCKOFFSET) % 4 = s.BLOCKOFFSET % 4 := by omega
    have hget : s.B[s.BLOCKOFFSET / 4]? = some (hcWord s.K s.IVB (m * n + s.BLOCKOFFSET / 4)) := by
      have hlt : s.BLOCKOFFSET / 4 < n := by omega
      rw [h.1, hcBlockAt, List.getElem?_map, List.getElem?_range hlt, Option.map_some]
    simp only [nextByte, blockByte, keystreamByte, keystreamWord, hq, hdiv, hmod, byteOfWord_eq, List.getD_eq_getElem?_getD, hget,
      Option.getD_some]

theorem iterate_advanceByte_offset_lt {n : Nat} {c : Cipher} {s : State} (k : Nat) (h : s.BLOCKOFFSET < blockBytes n c) :
    ((advanceByte n c)^[k] s).BLOCKOFFSET < blockBytes n c := by
  induction k with
  | zero => exact h
  | succ k ih =>
    rw [Function.iterate_succ_apply']
    exact advanceByte_offset_lt ih

/-- `k` bytes further in the same keystream (R129). -/
theorem holdsBlock_iterate_advanceByte {n : Nat} {c : Cipher} {s : State} {m : Nat} (k : Nat)
    (hidx : s.BLOCKINDEX = BitVec.ofNat 64 m) (h : holdsBlock n c s m) :
    ∃ m', ((advanceByte n c)^[k] s).BLOCKINDEX = BitVec.ofNat 64 m' ∧
      holdsBlock n c ((advanceByte n c)^[k] s) m' ∧
      m' * blockBytes n c + ((advanceByte n c)^[k] s).BLOCKOFFSET = m * blockBytes n c + s.BLOCKOFFSET + k := by
  induction k with
  | zero => exact ⟨m, hidx, h, rfl⟩
  | succ k ih =>
    obtain ⟨m1, hi1, hb1, he1⟩ := ih
    obtain ⟨m2, hi2, hb2, he2⟩ := holdsBlock_advanceByte hi1 hb1
    rw [Function.iterate_succ_apply']
    exact ⟨m2, hi2, hb2, by rw [he2, he1, Nat.add_assoc]⟩

theorem iterate_advanceByte_K (n : Nat) (c : Cipher) (k : Nat) (s : State) : ((advanceByte n c)^[k] s).K = s.K := by
  have h := iterate_advanceByte_frame n c k s
  simp only at h
  rw [h]

theorem iterate_advanceByte_IVB (n : Nat) (c : Cipher) (k : Nat) (s : State) : ((advanceByte n c)^[k] s).IVB = s.IVB := by
  have h := iterate_advanceByte_frame n c k s
  simp only at h
  rw [h]

/-- The output bytes of an engine that holds its block, by position (R129). -/
theorem outputBytes_eq_keystream {n : Nat} {c : Cipher} {s : State} {m : Nat} (data : List Byte)
    (hidx : s.BLOCKINDEX = BitVec.ofNat 64 m) (h : holdsBlock n c s m) (ho : s.BLOCKOFFSET < blockBytes n c) :
    outputBytes n c data s = data.zipIdx.map fun bi =>
      bi.1 ^^^ keystreamByte c s.K s.IVB (m * blockBytes n c + s.BLOCKOFFSET + bi.2) := by
  apply List.ext_getElem?
  intro i
  obtain ⟨m', -, hb, he⟩ := holdsBlock_iterate_advanceByte i hidx h
  rw [getElem?_outputBytes, nextByte_eq_keystreamByte hb (iterate_advanceByte_offset_lt i ho), he,
    iterate_advanceByte_K, iterate_advanceByte_IVB]
  cases hd : data[i]? <;> simp [hd]

end Sys2Proof.Machine
end

