-- ==== Sys2Proof/Laws/Commands.lean ====
section
/-!
SUPPORT. Laws of the six commands: what each leaves, as one equation per outcome (40_keystream_engine.md R120 to R128,
41_seekable.md R150).
-/

namespace Sys2Proof.Machine

open Sys2Proof.Safety

/-- Every command completes, and `exec` runs it with the core's own `HC_BLOCK_WORDS`. -/
theorem exec_eq_command (i : Instr) (s : State) : exec i s = .next (command Config.hcBlockWords i s) := by cases i <;> rfl

@[simp] theorem hcBlockWords_pos : 0 < Config.hcBlockWords := Nat.succ_pos _

theorem blockBytes_pos {n : Nat} (hn : 0 < n) (c : Cipher) : 0 < blockBytes n c := by
  cases c <;> simp only [blockBytes, blockWords] <;> omega

theorem answered_eq_rspWrite (bs : List Byte) (s : State) : answered bs s = rspWrite bs s := rfl

/-- Position 0 of every algorithm. -/
theorem setPosition_zero (n : Nat) (c : Cipher) (s : State) :
    setPosition n c 0 s = { s with BLOCKINDEX := 0, BLOCKOFFSET := 0 } := by
  have h0 : (0 : Pos).toNat = 0 := rfl
  simp only [setPosition, h0, Nat.zero_div, Nat.zero_mod]
  rfl

/-- All that an accepted INIT does (R122). -/
theorem initEngine_eq (n : Nat) (c : Cipher) (key : RegFile Byte 32) (iv : List Byte) (pos : Pos) (s : State)
    (hpos : c = .hc256 → pos = 0) :
    initEngine n c key iv pos s =
      rspWrite [statusCode .ok] (positioned n c (keyWords key) (storeIV iv s.IVB) pos s) := by
  cases c with
  | arx a => rfl
  | hc256 =>
    have h0 : pos = 0 := hpos rfl
    subst h0
    simp only [initEngine, if_true, setPosition_zero, hc256Init_eq, computeBlock, hcBlock, hcWords_first, setReady, positioned]

/-- All that an accepted SEEK does (R150, R151). -/
theorem seekEngine_eq (n : Nat) (c : Cipher) (pos : Pos) (s : State) (hready : s.READY = true)
    (hpos : c = .hc256 → pos = 0) :
    seekEngine n c pos s = rspWrite [statusCode .ok] (positioned n c s.K s.IVB pos s) := by
  cases c with
  | arx a =>
    simp only [seekEngine, reduceCtorEq, if_false, computeBlock, setPosition, streamBlock_eq, positioned, hready]
    rfl
  | hc256 =>
    have h0 : pos = 0 := hpos rfl
    subst h0
    simp only [seekEngine, if_true, setPosition_zero, hc256Init_eq, computeBlock, hcBlock, hcWords_first, positioned, hready]

theorem init_notConstructed (n : Nat) (key iv : List Byte) (pos : Pos) {s : State} (h : s.ALG = none) :
    init n key iv pos s = raise .notConstructed s := by simp [init, h]

theorem init_invalidKeyLength (n : Nat) {key : List Byte} (iv : List Byte) (pos : Pos) {s : State} {c : Cipher}
    (h : s.ALG = some c) (hk : key.length ≠ 32) : init n key iv pos s = raise .invalidKeyLength s := by simp [init, h, hk]

theorem init_invalidIVLength (n : Nat) {key iv : List Byte} (pos : Pos) {s : State} {c : Cipher} (h : s.ALG = some c)
    (hk : key.length = 32) (hv : iv.length ≠ ivBytes c) : init n key iv pos s = raise .invalidIVLength s := by
  simp [init, h, hk, hv]

theorem init_unsupportedSeek (n : Nat) {key iv : List Byte} {pos : Pos} {s : State} (h : s.ALG = some .hc256)
    (hk : key.length = 32) (hv : iv.length = 32) (hp : pos ≠ 0) : init n key iv pos s = raise .unsupportedSeek s := by
  have hv' : iv.length = ivBytes .hc256 := hv
  simp only [init, h, dif_pos hk, hv', ne_eq, not_true_eq_false, if_false]
  rw [if_pos ⟨trivial, hp⟩]

theorem init_accepted (n : Nat) {key iv : List Byte} {pos : Pos} {s : State} {c : Cipher} (h : s.ALG = some c)
    (hk : key.length = 32) (hv : iv.length = ivBytes c) (hp : c = .hc256 → pos = 0) :
    init n key iv pos s =
      rspWrite [statusCode .ok] (positioned n c (keyWords ⟨key, hk⟩) (storeIV iv s.IVB) pos s) := by
  have hno : ¬ (c = .hc256 ∧ pos ≠ 0) := fun ⟨hc, hpos⟩ => hpos (hp hc)
  simp only [init, h, dif_pos hk, hv, ne_eq, not_true_eq_false, if_false]
  rw [if_neg hno, initEngine_eq n c ⟨key, hk⟩ iv pos s hp]

theorem seek_notReady (n : Nat) (pos : Pos) {s : State} (h : readyCipher s = none) : seek n pos s = raise .notReady s := by
  simp [seek, h]

theorem seek_unsupportedSeek (n : Nat) {pos : Pos} {s : State} (h : readyCipher s = some .hc256) (hp : pos ≠ 0) :
    seek n pos s = raise .unsupportedSeek s := by
  simp only [seek, h]
  rw [if_pos ⟨trivial, hp⟩]

theorem seek_accepted (n : Nat) {pos : Pos} {s : State} {c : Cipher} (h : readyCipher s = some c) (hp : c = .hc256 → pos = 0) :
    seek n pos s = rspWrite [statusCode .ok] (positioned n c s.K s.IVB pos s) := by
  have hno : ¬ (c = .hc256 ∧ pos ≠ 0) := fun ⟨hc, hpos⟩ => hpos (hp hc)
  simp only [seek, h]
  rw [if_neg hno, seekEngine_eq n c pos s (readyCipher_eq_some.mp h).1 hp]

/-- All that INIT can do: one error, or the engine positioned on the new key and IV (R122). -/
theorem init_cases (n : Nat) (key iv : List Byte) (pos : Pos) (s : State) :
    (∃ e, e ≠ Status.ok ∧ init n key iv pos s = raise e s) ∨
    ∃ c, ∃ hk : key.length = 32, s.ALG = some c ∧ iv.length = ivBytes c ∧ (c = .hc256 → pos = 0) ∧
      init n key iv pos s =
        rspWrite [statusCode .ok] (positioned n c (keyWords ⟨key, hk⟩) (storeIV iv s.IVB) pos s) := by
  cases hALG : s.ALG with
  | none => exact .inl ⟨_, by decide, init_notConstructed n key iv pos hALG⟩
  | some c =>
    by_cases hk : key.length = 32
    · by_cases hv : iv.length = ivBytes c
      · by_cases hp : c = .hc256 → pos = 0
        · exact .inr ⟨c, hk, rfl, hv, hp, init_accepted n hALG hk hv hp⟩
        · push Not at hp
          obtain ⟨rfl, hne⟩ := hp
          exact .inl ⟨_, by decide, init_unsupportedSeek n hALG hk hv hne⟩
      · exact .inl ⟨_, by decide, init_invalidIVLength n pos hALG hk hv⟩
    · exact .inl ⟨_, by decide, init_invalidKeyLength n iv pos hALG hk⟩

/-- All that SEEK can do: one error, or the engine positioned on the key and IV it holds (R150). -/
theorem seek_cases (n : Nat) (pos : Pos) (s : State) :
    (∃ e, e ≠ Status.ok ∧ seek n pos s = raise e s) ∨
    ∃ c, readyCipher s = some c ∧ (c = .hc256 → pos = 0) ∧
      seek n pos s = rspWrite [statusCode .ok] (positioned n c s.K s.IVB pos s) := by
  cases hr : readyCipher s with
  | none => exact .inl ⟨_, by decide, seek_notReady n pos hr⟩
  | some c =>
    by_cases hp : c = .hc256 → pos = 0
    · exact .inr ⟨c, rfl, hp, seek_accepted n hr hp⟩
    · push Not at hp
      obtain ⟨rfl, hne⟩ := hp
      exact .inl ⟨_, by decide, seek_unsupportedSeek n hr hne⟩

/-- All that CONSTRUCT can do: one error, or a released engine of the algorithm (R120). -/
theorem construct_cases (n : Nat) (alg : Byte) (s : State) :
    (3 < alg.toNat ∧ construct n alg s = raise .unknownAlgorithm s) ∨
    (alg.toNat ≤ 3 ∧
      construct n alg s = rspWrite [statusCode .ok] (selectAlg n (algOfCode (alg.extractLsb' 0 2)) (release s))) := by
  unfold construct
  split_ifs with h
  · exact .inl ⟨h, rfl⟩
  · exact .inr ⟨by omega, rfl⟩

theorem apply_notReady (n : Nat) (data : List Byte) {s : State} (h : readyCipher s = none) :
    apply n data s = raise .notReady s := by simp [apply, h]

theorem apply_accepted (n : Nat) (data : List Byte) {s : State} {c : Cipher} (h : readyCipher s = some c) :
    apply n data s =
      rspWrite (statusCode .ok :: outputBytes n c data s) ((advanceByte n c)^[data.length] s) := by
  simp only [apply, h, applyBytes_eq, outputBytes_rspWrite, iterate_advanceByte_rspWrite, rspWrite_rspWrite]
  rfl

theorem getpos_notReady (n : Nat) {s : State} (h : readyCipher s = none) : getpos n s = raise .notReady s := by
  simp [getpos, h]

theorem getpos_accepted (n : Nat) {s : State} {c : Cipher} (h : readyCipher s = some c) :
    getpos n s = rspWrite (statusCode .ok :: leBytes 8 (positionView n c s).toNat) s := by simp [getpos, h]

theorem getiv_notReady {s : State} (h : readyCipher s = none) : getiv s = raise .notReady s := by simp [getiv, h]

theorem getiv_accepted {s : State} {c : Cipher} (h : readyCipher s = some c) :
    getiv s = rspWrite (statusCode .ok :: BitVec.ofNat 8 (ivBytes c) :: s.IVB.elems.take (ivBytes c)) s := by
  simp [getiv, h]

/-- The key words an accepted INIT stores (10_state.md R30). -/
theorem keyWords_read (key : List Byte) (h : key.length = 32) (i : Fin 8) :
    (keyWords ⟨key, h⟩).read i =
      le32 (key.getD (4 * i) 0) (key.getD (4 * i + 1) 0) (key.getD (4 * i + 2) 0) (key.getD (4 * i + 3) 0) := by
  have hread : ∀ j : Fin 32, (RegFile.mk key h).read j = key.getD j.val 0 := by
    intro j
    rw [List.getD_eq_getElem _ _ (by rw [h]; exact j.isLt)]
    rfl
  simp only [keyWords, RegFile.read_ofFn, packedWord, hread]

/-- Word `i` of the IV as arithmetic on its four bytes (20_memory.md R63 b). -/
theorem ivWord_toNat (iv : RegFile Byte 32) (i : Fin 8) :
    (ivWord iv i).toNat =
      (iv.read (Fin.ofNat 32 (4 * i))).toNat + 2 ^ 8 * (iv.read (Fin.ofNat 32 (4 * i + 1))).toNat +
        2 ^ 16 * (iv.read (Fin.ofNat 32 (4 * i + 2))).toNat + 2 ^ 24 * (iv.read (Fin.ofNat 32 (4 * i + 3))).toNat := by
  have hbyte : ∀ (j : Nat) (h : j < 32), Fin.ofNat 32 j = ⟨j, h⟩ := fun j h => Fin.ext (Nat.mod_eq_of_lt h)
  have hi := i.isLt
  rw [ivWord, packedWord, le32_toNat, hbyte (4 * i) (by omega), hbyte (4 * i + 1) (by omega), hbyte (4 * i + 2) (by omega),
    hbyte (4 * i + 3) (by omega)]

theorem storeIV_read_given {iv : List Byte} (v : RegFile Byte 32) (i : Fin 32) (h : i.val < iv.length) :
    (storeIV iv v).read i = iv.getD i.val 0 := by
  simp only [storeIV, RegFile.read_ofFn, List.getD_eq_getElem _ _ h]

theorem storeIV_read_kept {iv : List Byte} (v : RegFile Byte 32) (i : Fin 32) (h : iv.length ≤ i.val) :
    (storeIV iv v).read i = v.read i := by
  simp [storeIV, h]

/-- A positioned engine holds the block of its position (R122, R150). -/
theorem holdsBlock_positioned {n : Nat} {c : Cipher} (k : RegFile Word 8) (v : RegFile Byte 32) {pos : Pos} (s : State)
    (hp : c = .hc256 → pos = 0) :
    holdsBlock n c (positioned n c k v pos s) (pos.toNat / blockBytes n c) ∧
      (positioned n c k v pos s).BLOCKINDEX = BitVec.ofNat 64 (pos.toNat / blockBytes n c) ∧
      (positioned n c k v pos s).BLOCKOFFSET = pos.toNat % blockBytes n c := by
  cases c with
  | arx a => exact ⟨rfl, rfl, rfl⟩
  | hc256 =>
    obtain rfl := hp rfl
    have h0 : (0 : Pos).toNat = 0 := rfl
    rw [h0, Nat.zero_div, Nat.zero_mod]
    refine ⟨?_, rfl, rfl⟩
    simp [holdsBlock, positioned]

/-- The position view of a block index that is a 64-bit number (10_state.md R28). -/
theorem positionView_eq {n : Nat} {c : Cipher} {s : State} {m : Nat} (hidx : s.BLOCKINDEX = BitVec.ofNat 64 m) :
    positionView n c s = BitVec.ofNat 64 (m * blockBytes n c + s.BLOCKOFFSET) := by
  apply BitVec.eq_of_toNat_eq
  simp [positionView, hidx, Nat.add_mod, Nat.mul_mod]

/-- A command's response is the same whatever the streams hold, and the response is all it adds to them (20_memory.md R68). -/
theorem command_withStreams (n : Nat) (i : Instr) (s : State) : ∃ out, out ≠ [] ∧ ∀ cmd cc rsp rc,
    command n i (withStreams cmd cc rsp rc s) =
      withStreams cmd cc (rsp ++ out) (rc + out.length) (command n i s) := by
  have hraise : ∀ e cmd cc rsp rc, raise e (withStreams cmd cc rsp rc s) =
      withStreams cmd cc (rsp ++ [statusCode e]) (rc + 1) (raise e s) := fun _ _ _ _ _ => rfl
  have hready : ∀ cmd cc rsp rc, readyCipher (withStreams cmd cc rsp rc s) = readyCipher s := fun _ _ _ _ => rfl
  cases i with
  | construct alg =>
    by_cases h : 3 < alg.toNat
    · refine ⟨[statusCode .unknownAlgorithm], by simp, fun cmd cc rsp rc => ?_⟩
      simp only [command, construct, if_pos h]
      rfl
    · refine ⟨[statusCode .ok], by simp, fun cmd cc rsp rc => ?_⟩
      simp only [command, construct, if_neg h]
      rfl
  | init key iv pos =>
    cases hALG : s.ALG with
    | none =>
      refine ⟨[statusCode .notConstructed], by simp, fun cmd cc rsp rc => ?_⟩
      exact (init_notConstructed n key iv pos (s := withStreams cmd cc rsp rc s) hALG).trans
        (by rw [hraise, command, init_notConstructed n key iv pos hALG]; rfl)
    | some c =>
      by_cases hk : key.length = 32
      · by_cases hv : iv.length = ivBytes c
        · by_cases hp : c = .hc256 → pos = 0
          · refine ⟨[statusCode .ok], by simp, fun cmd cc rsp rc => ?_⟩
            refine (init_accepted n (s := withStreams cmd cc rsp rc s) hALG hk hv hp).trans ?_
            rw [command, init_accepted n hALG hk hv hp]
            cases c <;> rfl
          · push Not at hp
            obtain ⟨rfl, hne⟩ := hp
            refine ⟨[statusCode .unsupportedSeek], by simp, fun cmd cc rsp rc => ?_⟩
            exact (init_unsupportedSeek n (s := withStreams cmd cc rsp rc s) hALG hk hv hne).trans
              (by rw [hraise, command, init_unsupportedSeek n hALG hk hv hne]; rfl)
        · refine ⟨[statusCode .invalidIVLength], by simp, fun cmd cc rsp rc => ?_⟩
          exact (init_invalidIVLength n pos (s := withStreams cmd cc rsp rc s) hALG hk hv).trans
            (by rw [hraise, command, init_invalidIVLength n pos hALG hk hv]; rfl)
      · refine ⟨[statusCode .invalidKeyLength], by simp, fun cmd cc rsp rc => ?_⟩
        exact (init_invalidKeyLength n iv pos (s := withStreams cmd cc rsp rc s) hALG hk).trans
          (by rw [hraise, command, init_invalidKeyLength n iv pos hALG hk]; rfl)
  | seek pos =>
    cases hr : readyCipher s with
    | none =>
      refine ⟨[statusCode .notReady], by simp, fun cmd cc rsp rc => ?_⟩
      rw [command, command, seek_notReady n pos hr, seek_notReady n pos (by rw [hready, hr]), hraise]
      rfl
    | some c =>
      by_cases hp : c = .hc256 → pos = 0
      · refine ⟨[statusCode .ok], by simp, fun cmd cc rsp rc => ?_⟩
        rw [command, command, seek_accepted n hr hp, seek_accepted n (by rw [hready, hr]) hp]
        cases c <;> rfl
      · push Not at hp
        obtain ⟨rfl, hne⟩ := hp
        refine ⟨[statusCode .unsupportedSeek], by simp, fun cmd cc rsp rc => ?_⟩
        rw [command, command, seek_unsupportedSeek n hr hne, seek_unsupportedSeek n (by rw [hready, hr]) hne, hraise]
        rfl
  | apply data =>
    cases hr : readyCipher s with
    | none =>
      refine ⟨[statusCode .notReady], by simp, fun cmd cc rsp rc => ?_⟩
      rw [command, command, apply_notReady n data hr, apply_notReady n data (by rw [hready, hr]), hraise]
      rfl
    | some c =>
      refine ⟨statusCode .ok :: outputBytes n c data s, by simp, fun cmd cc rsp rc => ?_⟩
      rw [command, command, apply_accepted n data hr, apply_accepted n data (by rw [hready, hr]),
        outputBytes_withStreams, iterate_advanceByte_withStreams]
      rfl
  | getpos =>
    cases hr : readyCipher s with
    | none =>
      refine ⟨[statusCode .notReady], by simp, fun cmd cc rsp rc => ?_⟩
      rw [command, command, getpos_notReady n hr, getpos_notReady n (by rw [hready, hr]), hraise]
      rfl
    | some c =>
      refine ⟨statusCode .ok :: leBytes 8 (positionView n c s).toNat, by simp, fun cmd cc rsp rc => ?_⟩
      rw [command, command, getpos_accepted n hr, getpos_accepted n (by rw [hready, hr])]
      rfl
  | getiv =>
    cases hr : readyCipher s with
    | none =>
      refine ⟨[statusCode .notReady], by simp, fun cmd cc rsp rc => ?_⟩
      rw [command, command, getiv_notReady hr, getiv_notReady (by rw [hready, hr]), hraise]
      rfl
    | some c =>
      refine ⟨statusCode .ok :: BitVec.ofNat 8 (ivBytes c) :: s.IVB.elems.take (ivBytes c), by simp,
        fun cmd cc rsp rc => ?_⟩
      rw [command, command, getiv_accepted hr, getiv_accepted (by rw [hready, hr])]
      rfl

/-- A command appends its response, which is never empty, and counts it (30_encoding.md R100). -/
theorem command_response (n : Nat) (i : Instr) (s : State) : ∃ out, out ≠ [] ∧
    (command n i s).rsp = s.rsp ++ out ∧ (command n i s).rc = s.rc + out.length := by
  obtain ⟨out, hne, h⟩ := command_withStreams n i s
  have hs : command n i s = withStreams s.cmd s.cc (s.rsp ++ out) (s.rc + out.length) (command n i s) :=
    h s.cmd s.cc s.rsp s.rc
  exact ⟨out, hne, congrArg State.rsp hs, congrArg State.rc hs⟩

@[simp] theorem runCommands_nil (n : Nat) (s : State) : runCommands n [] s = s := rfl

@[simp] theorem runCommands_cons (n : Nat) (i : Instr) (is : List Instr) (s : State) :
    runCommands n (i :: is) s = runCommands n is (command n i s) := rfl

/-- What a list of commands answers is the same whatever the streams hold. -/
theorem runCommands_withStreams (n : Nat) (is : List Instr) (s : State) : ∃ out, ∀ cmd cc rsp rc,
    runCommands n is (withStreams cmd cc rsp rc s) =
      withStreams cmd cc (rsp ++ out) (rc + out.length) (runCommands n is s) := by
  induction is generalizing s with
  | nil => exact ⟨[], fun _ _ _ _ => by simp⟩
  | cons i is ih =>
    obtain ⟨o1, -, h1⟩ := command_withStreams n i s
    obtain ⟨o2, h2⟩ := ih (command n i s)
    exact ⟨o1 ++ o2, fun cmd cc rsp rc => by
      rw [runCommands_cons, runCommands_cons, h1, h2, List.append_assoc, List.length_append, Nat.add_assoc]⟩

/-- What a command never touches: the command stream, its cursor, `HALTED` and the reset input. -/
theorem command_frame (n : Nat) (i : Instr) (s : State) :
    (command n i s).cmd = s.cmd ∧ (command n i s).cc = s.cc ∧ (command n i s).HALTED = s.HALTED ∧
      (command n i s).RESET = s.RESET := by
  cases i with
  | construct alg =>
    obtain ⟨-, h⟩ | ⟨-, h⟩ := construct_cases n alg s <;> simp [command, h, raise]
  | init key iv pos =>
    obtain ⟨e, -, h⟩ | ⟨c, _, -, -, -, h⟩ := init_cases n key iv pos s
    · simp [command, h, raise]
    · cases c <;> simp [command, h, positioned]
  | seek pos =>
    obtain ⟨e, -, h⟩ | ⟨c, -, -, h⟩ := seek_cases n pos s
    · simp [command, h, raise]
    · cases c <;> simp [command, h, positioned]
  | apply data =>
    cases hr : readyCipher s with
    | none => simp [command, apply_notReady n data hr, raise]
    | some c =>
      have h := iterate_advanceByte_frame n c data.length s
      simp only at h
      rw [command, apply_accepted n data hr, h]
      simp
  | getpos =>
    cases hr : readyCipher s with
    | none => simp [command, getpos_notReady n hr, raise]
    | some c => simp [command, getpos_accepted n hr]
  | getiv =>
    cases hr : readyCipher s with
    | none => simp [command, getiv_notReady hr, raise]
    | some c => simp [command, getiv_accepted hr]

end Sys2Proof.Machine
end

