-- ==== Sys2Proof/Laws/Decode.lean ====
section
/-!
SUPPORT. Laws of the decoder's parts: taking bytes, the opcode map, and the parsers on the bytes the encoder writes
(30_encoding.md R91 to R98).
-/

namespace Sys2Proof

open Sys2Proof.Machine

theorem takeBytes_append (a b : List Byte) : takeBytes a.length (a ++ b) = some (a, b) := by simp [takeBytes]

theorem takeBytes_eq_some {n : Nat} {bs a b : List Byte} : takeBytes n bs = some (a, b) ↔ bs = a ++ b ∧ a.length = n := by
  constructor
  · intro h
    unfold takeBytes at h
    split_ifs at h with hn
    simp only [Option.some.injEq, Prod.mk.injEq] at h
    obtain ⟨rfl, rfl⟩ := h
    exact ⟨(List.take_append_drop n bs).symm, by simpa using hn⟩
  · rintro ⟨rfl, rfl⟩
    exact takeBytes_append a b

theorem takeBytes_eq_none {n : Nat} {bs : List Byte} : takeBytes n bs = none ↔ bs.length < n := by
  unfold takeBytes
  split_ifs with h <;> simp <;> omega

theorem takeByte_eq_some {bs rest : List Byte} {b : Byte} : takeByte bs = some (b, rest) ↔ bs = b :: rest := by
  cases bs <;> simp [takeByte]

theorem takeByte_eq_none {bs : List Byte} : takeByte bs = none ↔ bs = [] := by cases bs <;> simp [takeByte]

theorem takePos_append (pos : Pos) (rest : List Byte) : takePos (leBytes 8 pos.toNat ++ rest) = some (pos, rest) := by
  have h := takeBytes_append (leBytes 8 pos.toNat) rest
  rw [leBytes_length] at h
  simp only [takePos, h, Option.map_some, leValue_leBytes, Nat.reduceMul, Nat.mod_eq_of_lt pos.isLt, BitVec.ofNat_toNat,
    BitVec.setWidth_eq]

theorem takePos_eq_some {bs rest : List Byte} {pos : Pos} :
    takePos bs = some (pos, rest) ↔ bs = leBytes 8 pos.toNat ++ rest := by
  constructor
  · intro h
    simp only [takePos, Option.map_eq_some_iff, Prod.mk.injEq] at h
    obtain ⟨⟨a, b⟩, hab, hpos, rfl⟩ := h
    obtain ⟨rfl, hlen⟩ := takeBytes_eq_some.mp hab
    have hlt := leValue_lt a
    rw [hlen] at hlt
    rw [← hpos, BitVec.toNat_ofNat, Nat.mod_eq_of_lt hlt, ← hlen, leBytes_leValue]
  · rintro rfl
    exact takePos_append pos rest

theorem takePos_eq_none {bs : List Byte} : takePos bs = none ↔ bs.length < 8 := by
  simp [takePos, takeBytes_eq_none]

@[simp] theorem opcodeOfByte_opcodeByte (op : Opcode) : opcodeOfByte (opcodeByte op) = some op := by cases op <;> rfl

/-- The opcode map has one byte per opcode. -/
theorem opcodeOfByte_eq_some {b : Byte} {op : Opcode} : opcodeOfByte b = some op ↔ b = opcodeByte op := by
  have all : ∀ b : Fin (2 ^ 8), opcodeOfByte ⟨b⟩ = some op ↔ (⟨b⟩ : Byte) = opcodeByte op := by
    cases op <;> decide +kernel
  exact all b.toFin

/-- The bytes no opcode has: 0x00 and 0x07..0xFF. -/
theorem opcodeOfByte_eq_none {b : Byte} : opcodeOfByte b = none ↔ b = 0 ∨ 7 ≤ b.toNat := by
  have all : ∀ b : Fin (2 ^ 8), opcodeOfByte ⟨b⟩ = none ↔ (⟨b⟩ : Byte) = 0 ∨ 7 ≤ (⟨b⟩ : Byte).toNat := by decide +kernel
  exact all b.toFin

theorem decode_cons_of_opcode {b : Byte} {op : Opcode} (h : opcodeOfByte b = some op) (bs : List Byte) :
    decode (b :: bs) = (parseOperands op bs).elim .incomplete fun r => .command r.1 r.2 := by
  simp only [decode, h]
  cases parseOperands op bs <;> rfl

/-- What a decoded command comes from: an opcode and operands that its parser accepts. -/
theorem decode_eq_command {bs rest : List Byte} {i : Instr} :
    decode bs = .command i rest ↔ ∃ op tail, bs = opcodeByte op :: tail ∧ parseOperands op tail = some (i, rest) := by
  constructor
  · intro h
    cases bs with
    | nil => simp [decode] at h
    | cons b tail =>
      cases hop : opcodeOfByte b with
      | none => simp [decode, hop] at h
      | some op =>
        rw [decode_cons_of_opcode hop] at h
        cases hp : parseOperands op tail with
        | none => simp [hp] at h
        | some r =>
          simp only [hp, Option.elim_some, Decoded.command.injEq] at h
          obtain ⟨rfl, rfl⟩ := h
          exact ⟨op, tail, by rw [opcodeOfByte_eq_some.mp hop], hp⟩
  · rintro ⟨op, tail, rfl, hp⟩
    rw [decode_cons_of_opcode (opcodeOfByte_opcodeByte op), hp, Option.elim_some]

theorem decode_eq_illegal {bs rest : List Byte} {b : Byte} :
    decode bs = .illegal b rest ↔ bs = b :: rest ∧ opcodeOfByte b = none := by
  constructor
  · intro h
    cases bs with
    | nil => simp [decode] at h
    | cons b' tail =>
      cases hop : opcodeOfByte b' with
      | none =>
        simp only [decode, hop, Decoded.illegal.injEq] at h
        obtain ⟨rfl, rfl⟩ := h
        exact ⟨rfl, hop⟩
      | some op =>
        rw [decode_cons_of_opcode hop] at h
        cases hp : parseOperands op tail <;> simp [hp] at h
  · rintro ⟨rfl, hop⟩
    simp [decode, hop]

/-! What each parser accepts: its operands' bytes, and nothing else. -/

theorem parseConstruct_eq_some {bs rest : List Byte} {i : Instr} :
    parseConstruct bs = some (i, rest) ↔ ∃ alg, i = .construct alg ∧ bs = alg :: rest := by
  cases bs with
  | nil => simp [parseConstruct, takeByte]
  | cons b tail => simp [parseConstruct, takeByte, eq_comm, and_comm]

theorem parseSeek_eq_some {bs rest : List Byte} {i : Instr} :
    parseSeek bs = some (i, rest) ↔ ∃ pos, i = .seek pos ∧ bs = leBytes 8 pos.toNat ++ rest := by
  simp only [parseSeek, Option.map_eq_some_iff, Prod.mk.injEq, Prod.exists, takePos_eq_some]
  constructor
  · rintro ⟨pos, r, h, rfl, rfl⟩
    exact ⟨pos, rfl, h⟩
  · rintro ⟨pos, rfl, h⟩
    exact ⟨pos, rest, h, rfl, rfl⟩

theorem parseApply_eq_some {bs rest : List Byte} {i : Instr} :
    parseApply bs = some (i, rest) ↔
      ∃ data, i = .apply data ∧ data.length < 2 ^ 32 ∧ bs = leBytes 4 data.length ++ (data ++ rest) := by
  simp only [parseApply, Option.bind_eq_some_iff, Option.map_eq_some_iff, Prod.mk.injEq, Prod.exists, takeBytes_eq_some]
  constructor
  · rintro ⟨len, tail, ⟨rfl, hlen⟩, data, r, ⟨rfl, hdata⟩, rfl, rfl⟩
    have hlt := leValue_lt len
    rw [hlen] at hlt
    refine ⟨data, rfl, by omega, ?_⟩
    rw [hdata, ← hlen, leBytes_leValue]
  · rintro ⟨data, rfl, hlt, rfl⟩
    refine ⟨leBytes 4 data.length, data ++ rest, ⟨rfl, leBytes_length _ _⟩, data, rest, ⟨rfl, ?_⟩, rfl, rfl⟩
    rw [leValue_leBytes]
    omega

theorem parseInit_eq_some {bs rest : List Byte} {i : Instr} :
    parseInit bs = some (i, rest) ↔
      ∃ key iv pos, i = .init key iv pos ∧ key.length < 2 ^ 8 ∧ iv.length < 2 ^ 8 ∧
        bs = BitVec.ofNat 8 key.length :: (key ++ BitVec.ofNat 8 iv.length :: (iv ++ (leBytes 8 pos.toNat ++ rest))) := by
  have ofNat_toNat : ∀ b : Byte, BitVec.ofNat 8 b.toNat = b := fun b => by simp
  simp only [parseInit, Option.bind_eq_some_iff, Option.map_eq_some_iff, Prod.mk.injEq, Prod.exists, takeBytes_eq_some,
    takeByte_eq_some, takePos_eq_some]
  constructor
  · rintro ⟨klen, t1, rfl, key, t2, ⟨rfl, hkey⟩, ivlen, t3, rfl, iv, t4, ⟨rfl, hiv⟩, pos, r, rfl, rfl, rfl⟩
    have hk := klen.isLt
    have hv := ivlen.isLt
    refine ⟨key, iv, pos, rfl, by omega, by omega, ?_⟩
    rw [hkey, hiv, ofNat_toNat, ofNat_toNat]
  · rintro ⟨key, iv, pos, rfl, hk, hv, rfl⟩
    refine ⟨_, _, rfl, key, _, ⟨rfl, ?_⟩, _, _, rfl, iv, _, ⟨rfl, ?_⟩, pos, rest, rfl, rfl, rfl⟩ <;>
      simp only [BitVec.toNat_ofNat] <;> omega

end Sys2Proof
end

