-- ==== Sys2Proof/Laws/PerInstr.lean ====
section
/-!
SUPPORT. Laws stated for every command, one lemma per constructor.
-/

namespace Sys2Proof.Laws.EncodedLength

open Sys2Proof.Machine

/-- A command's encoding has the total length the opcode map gives it (30_encoding.md R92). -/
def Statement (i : Instr) : Prop := (encode i).length = commandLength i

theorem construct (alg : Byte) : Statement (.construct alg) := rfl

theorem init (key iv : List Byte) (pos : Pos) : Statement (.init key iv pos) := by
  simp [Statement, encode, commandLength]
  omega

theorem seek (pos : Pos) : Statement (.seek pos) := by simp [Statement, encode, commandLength]

theorem apply (data : List Byte) : Statement (.apply data) := by
  simp [Statement, encode, commandLength]
  omega

theorem getpos : Statement .getpos := rfl

theorem getiv : Statement .getiv := rfl

end Sys2Proof.Laws.EncodedLength
end

