-- ==== Sys2Proof/Laws/Step.lean ====
section
/-!
SUPPORT. All that one step can do (30_encoding.md R91, R102, R104; 70_reset_and_hazards.md R280, R284).
-/

namespace Sys2Proof.Machine

open Sys2Proof.Safety

/-! One equation per thing the core can find to do. -/

theorem step_reset {s : State} (hR : s.RESET = true) : step s = .next State.reset := by
  simp [step, fetch, hR, takeReset_eq_reset]

theorem step_halted {s : State} (hR : s.RESET = false) (hH : s.HALTED = true) : step s = .fault .halted := by
  simp [step, fetch, hR, hH]

theorem step_command {s : State} {i : Instr} {rest : List Byte} (hR : s.RESET = false) (hH : s.HALTED = false)
    (hd : decode s.cmd = .command i rest) :
    step s = .next (command Config.hcBlockWords i (consume (commandLength i) rest s)) := by
  simp [step, fetch, hR, hH, hd, exec_eq_command]

theorem step_illegal {s : State} {b : Byte} {rest : List Byte} (hR : s.RESET = false) (hH : s.HALTED = false)
    (hd : decode s.cmd = .illegal b rest) : step s = .next (illegalCommand (consume 1 rest s)) := by
  simp [step, fetch, hR, hH, hd]

theorem step_incomplete {s : State} (hR : s.RESET = false) (hH : s.HALTED = false) (hd : decode s.cmd = .incomplete) :
    step s = .fault (if s.cmd.isEmpty then .commandStreamEmpty else .commandIncomplete) := by
  simp [step, fetch, hR, hH, hd]

/-- The one inversion of `step`: reset taken, a command run after its bytes are consumed, or an illegal opcode. -/
theorem step_cases {s t : State} (h : step s = .next t) :
    (s.RESET = true ∧ t = State.reset) ∨
    (s.RESET = false ∧ s.HALTED = false ∧ ∃ i rest, decode s.cmd = .command i rest ∧
      t = command Config.hcBlockWords i (consume (commandLength i) rest s)) ∨
    (s.RESET = false ∧ s.HALTED = false ∧ ∃ b rest, decode s.cmd = .illegal b rest ∧
      t = illegalCommand (consume 1 rest s)) := by
  cases hR : s.RESET with
  | true =>
    rw [step_reset hR, Host.Outcome.next.injEq] at h
    exact .inl ⟨rfl, h.symm⟩
  | false =>
    cases hH : s.HALTED with
    | true => simp [step_halted hR hH] at h
    | false =>
      cases hd : decode s.cmd with
      | command i rest =>
        rw [step_command hR hH hd, Host.Outcome.next.injEq] at h
        exact .inr (.inl ⟨rfl, rfl, i, rest, rfl, h.symm⟩)
      | illegal b rest =>
        rw [step_illegal hR hH hd, Host.Outcome.next.injEq] at h
        exact .inr (.inr ⟨rfl, rfl, b, rest, rfl, h.symm⟩)
      | incomplete => simp [step_incomplete hR hH hd] at h

/-- When no step is enabled: no reset is asserted, and the core is halted or no whole command has arrived. -/
theorem step_fault_cases {s : State} {r : Fault} (h : step s = .fault r) :
    s.RESET = false ∧ ((s.HALTED = true ∧ r = .halted) ∨
      (s.HALTED = false ∧ decode s.cmd = .incomplete ∧
        r = if s.cmd.isEmpty then .commandStreamEmpty else .commandIncomplete)) := by
  cases hR : s.RESET with
  | true => simp [step_reset hR] at h
  | false =>
    cases hH : s.HALTED with
    | true =>
      rw [step_halted hR hH, Host.Outcome.fault.injEq] at h
      exact ⟨rfl, .inl ⟨rfl, h.symm⟩⟩
    | false =>
      cases hd : decode s.cmd with
      | command i rest => simp [step_command hR hH hd] at h
      | illegal b rest => simp [step_illegal hR hH hd] at h
      | incomplete =>
        rw [step_incomplete hR hH hd, Host.Outcome.fault.injEq] at h
        exact ⟨rfl, .inr ⟨rfl, rfl, h.symm⟩⟩

theorem coreRun_succ (M : Host.Core) (k : Nat) {s t : M.State} (h : M.step s = .next t) : M.run (k + 1) s = M.run k t := by
  simp only [Host.Core.run, h]

/-- A run takes its first step and runs on from there. -/
theorem run_next {s t : State} (k : Nat) (h : step s = .next t) : Host.Core.run core (k + 1) s = Host.Core.run core k t :=
  coreRun_succ core k h

end Sys2Proof.Machine
end

