-- ==== Sys2Proof/Tests/Slice0.lean ====
section
/-!
SUPPORT. Tests on fixed values, and witnesses for the hypotheses of the statements. Expected values are the spec's own: the format
tables of 30_encoding.md, the examples of the rules, and the vectors V1 to V10 of 95_test_vectors.md, which that file marks as
derived from the rules (S1 apart); a value worked out by hand says so.
-/

namespace Sys2Proof.Tests

-- Kernel evaluation blocks a thread: one theorem at a time.
set_option Elab.async false

open Sys2Proof.Machine
open Sys2Proof.Safety

/-- The response stream after a step, if there is a next state. -/
def response : Host.Outcome State Fault Refusal → Option (List Byte)
  | .next s => some s.rsp
  | .fault _ => none
  | .refused _ => none

/-- A constructed engine, not ready. -/
def constructed (c : Cipher) : State := selectAlg Config.hcBlockWords (some c) State.reset

/-- An engine right after an accepted INIT with a key, an IV and a position. -/
def engine (c : Cipher) (k : RegFile Word 8) (v : RegFile Byte 32) (pos : Pos) : State :=
  positioned Config.hcBlockWords c k v pos (constructed c)

/-- The engine of the all-zero key and IV. -/
def zeroEngine (c : Cipher) (pos : Pos) : State := engine c (RegFile.fill 8 0) (RegFile.fill 32 0) pos

/-- The key bytes 1 to 32 of V3. -/
def key1to32 : List Byte := (List.range 32).map fun i => BitVec.ofNat 8 (i + 1)

/-- The IV of V3. -/
def ivPi : List Byte := [3, 1, 4, 1, 5, 9, 2, 6]

/-- Four lanes of a lane file. -/
def laneWords (l : Lanes) (q : Quad) : List Word := [l.read q.a, l.read q.b, l.read q.c, l.read q.d]

/-- Lanes 0, 4, 8 and 12 set, the others zero. -/
def column0 (a b c d : Word) : Lanes := ((((RegFile.fill 16 0).write 0 a).write 4 b).write 8 c).write 12 d

/-! ## WellFormed: each check refuses an ill-formed command -/

theorem test_wellFormed_init_key_too_long : (Instr.init (List.replicate 256 0) [] 0).wellFormed = false := by decide +kernel
theorem test_wellFormed_init_iv_too_long : (Instr.init [] (List.replicate 256 0) 0).wellFormed = false := by decide +kernel
theorem test_wellFormed_init_longest : (Instr.init (List.replicate 255 0) (List.replicate 255 1) 0).wellFormed = true := by
  decide +kernel
theorem test_wellFormed_apply (k : Nat) : (Instr.apply (List.replicate k 0)).wellFormed = decide (k < 2 ^ 32) := by
  simp [Instr.wellFormed]
theorem test_wellFormed_apply_too_long : (Instr.apply (List.replicate (2 ^ 32) 0)).wellFormed = false :=
  (test_wellFormed_apply _).trans rfl
theorem test_wellFormed_apply_longest : (Instr.apply (List.replicate (2 ^ 32 - 1) 0)).wellFormed = true :=
  (test_wellFormed_apply _).trans rfl

/-! ## Decoding: bytes from the format tables R93 to R97 -/

theorem test_decode_construct : decode [0x01, 0x02] = .command (.construct 2) [] := by decide
theorem test_decode_construct_reserved : decode [0x01, 0xff] = .command (.construct 255) [] := by decide
theorem test_decode_init_empty : decode [0x02, 0, 0, 1, 0, 0, 0, 0, 0, 0, 0x80] = .command (.init [] [] 0x8000000000000001) [] := by
  decide +kernel
theorem test_decode_init : decode [0x02, 1, 0xaa, 2, 0xbb, 0xcc, 1, 2, 3, 4, 5, 6, 7, 8, 9] =
    .command (.init [0xaa] [0xbb, 0xcc] 0x0807060504030201) [9] := by decide +kernel
theorem test_decode_seek : decode [0x03, 1, 2, 3, 4, 5, 6, 7, 8] = .command (.seek 0x0807060504030201) [] := by decide +kernel
theorem test_decode_apply : decode [0x04, 3, 0, 0, 0, 7, 8, 9, 5] = .command (.apply [7, 8, 9]) [5] := by decide +kernel
theorem test_decode_apply_empty : decode [0x04, 0, 0, 0, 0] = .command (.apply []) [] := by decide +kernel
theorem test_decode_getpos : decode [0x05, 0x06] = .command .getpos [0x06] := by decide
theorem test_decode_getiv : decode [0x06] = .command .getiv [] := by decide
theorem test_decode_illegal : decode [0x00, 1] = .illegal 0 [1] ∧ decode [0x07] = .illegal 7 [] ∧
    decode [0xff] = .illegal 0xff [] := by decide
theorem test_decode_incomplete : decode [] = .incomplete ∧ decode [0x01] = .incomplete ∧
    decode [0x02, 2, 1, 1, 1] = .incomplete ∧ decode [0x03, 1, 2, 3, 4, 5, 6, 7] = .incomplete ∧
    decode [0x04, 2, 0, 0] = .incomplete ∧ decode [0x04, 2, 0, 0, 0, 9] = .incomplete := by decide +kernel

/-- A table word with no operand bits is the command with operands of zeros. -/
theorem test_tableWord : decodeTableWord 8 0x01 = some (.construct 0) ∧ decodeTableWord 16 0x0301 = some (.construct 3) ∧
    decodeTableWord 8 0x02 = some (.init [] [] 0) ∧ decodeTableWord 8 0x03 = some (.seek 0) ∧
    decodeTableWord 8 0x04 = some (.apply []) ∧ decodeTableWord 8 0x05 = some .getpos ∧
    decodeTableWord 8 0x06 = some .getiv ∧ decodeTableWord 8 0x07 = none := by decide +kernel

theorem test_withFetchWord : response (step (State.reset.withFetchWord 16 0x0201)) = some [0x00] ∧
    response (step (State.reset.withFetchWord 8 0x05)) = some [0x11] := by decide +kernel

/-! ## Bytes, rotations and the two block functions -/

/-- R9, worked out by hand: a bit leaves at one end and comes back at the other. -/
theorem test_rotations : rotl 0x80000001 7 = 0x000000c0 ∧ rotr 0x80000001 7 = 0x03000000 ∧ shr 0x80000001 3 = 0x10000000 := by
  decide
/-- R10, R11, by hand. -/
theorem test_byte_order : le32 1 2 3 4 = 0x04030201 ∧ byteOfWord 0x04030201 0 = 1 ∧ byteOfWord 0x04030201 3 = 4 ∧
    leBytes 4 0x04030201 = [1, 2, 3, 4] := by decide
/-- R167: the four words are the sixteen characters. -/
theorem test_constants : [const0, const1, const2, const3].flatMap (fun w => (List.range 4).map (byteOfWord w)) =
    "expand 32-byte k".toList.map (fun c => BitVec.ofNat 8 c.toNat) := by decide +kernel
/-- V6. -/
theorem test_chachaQR : laneWords (chachaQR ⟨0, 4, 8, 12⟩ (column0 0x11111111 0x01020304 0x9b8d6f43 0x01234567)) ⟨0, 4, 8, 12⟩ =
    [0xea2a92f4, 0xcb1cf8ce, 0x4581472e, 0x5881c4bb] := by decide +kernel
/-- V7. -/
theorem test_salsaQR : laneWords (salsaQR ⟨0, 4, 8, 12⟩ (column0 0xe7e8c006 0xc4f9417d 0x6479b4b2 0x68c67137)) ⟨0, 4, 8, 12⟩ =
    [0xe876d72b, 0x9361dfd5, 0xf1460244, 0x948541a3] := by decide +kernel
/-- V7: one bit in each lane. -/
theorem test_salsaQR_lanes : laneWords (salsaQR ⟨0, 4, 8, 12⟩ (column0 0 1 0 0)) ⟨0, 4, 8, 12⟩ =
    [0x88000100, 0x00000001, 0x00000200, 0x00402000] ∧
    laneWords (salsaQR ⟨0, 4, 8, 12⟩ (column0 0 0 1 0)) ⟨0, 4, 8, 12⟩ = [0x80040000, 0, 1, 0x00002000] := by decide +kernel
/-- V8: the low counter word comes first. -/
theorem test_counter_lanes : (salsaLayout (RegFile.fill 8 0) (RegFile.fill 32 0) 0x0000000100000002).elems =
    [0x61707865, 0, 0, 0, 0, 0x3320646e, 0, 0, 2, 1, 0x79622d32, 0, 0, 0, 0, 0x6b206574] := by decide +kernel
/-- V1: one double round of the zero key and IV. -/
theorem test_chacha_doubleRound : (doubleRound .chacha20 (chachaLayout (RegFile.fill 8 0) (RegFile.fill 32 0) 0)).elems =
    [0xe45fd249, 0x1bb820a6, 0xe31a88ea, 0xe667a9fe, 0x2a3bf673, 0x86bf4098, 0x460b500a, 0xfa169886,
     0x538dca0e, 0x0c439641, 0x00fa16bc, 0x8a08812a, 0x6bbf8b09, 0xc33013d6, 0xbb9f9849, 0x87c62165] := by decide +kernel
/-- V3: block 7 of Salsa20 for key 1..32 and IV 3, 1, 4, 1, 5, 9, 2, 6. -/
theorem test_salsa_block7 : arxBlock .salsa20 (keyWords ⟨key1to32, rfl⟩) (storeIV ivPi (RegFile.fill 32 0)) 7 =
    [0xb9a205a3, 0x0695e150, 0xaa94881a, 0xadb7b12c, 0x798942d4, 0x26107016, 0x64edb1a4, 0x2d27173f,
     0xb1c7f1fa, 0x62066edc, 0xe035fa23, 0xc4496f04, 0x2131e6b3, 0x810bde28, 0xf62cb407, 0x6bdede3d] := by decide +kernel

/-! ## HC-256 -/

/-- V9. -/
theorem test_f1_f2 : f1 1 = 0x02004000 ∧ f1 0x80000000 = 0x11002000 ∧ f1 0xffffffff = 0x1fffffff ∧
    f2 1 = 0x0000a000 ∧ f2 0x80000000 = 0x00205000 ∧ f2 0xffffffff = 0x003fffff := by decide
/-- V9: `W[16..23]` of the zero key and IV. -/
theorem test_expansion : ((List.range 8).map fun i =>
      (hcExtend 8 16 (hcLoad (RegFile.fill 8 0) (RegFile.fill 32 0) (RegFile.fill 2660 0))).read (Fin.ofNat 2660 (16 + i))) =
    [0x00000010, 0x00000011, 0x000a0012, 0x000aa013, 0x400b4298, 0x040be2c1, 0xc90f2aea, 0x8d39a0a3] := by decide +kernel

/-- The table whose word `i` is `i`. -/
def countingTable : Table := RegFile.ofFn fun i => BitVec.ofNat 32 i.val

/-- R216 for j = 0, by hand: 0 + P[1014] + (rotr(P[1021], 10) ^ rotr(P[1], 23)) + Q[..], where Q is zero. -/
theorem test_pStep : (hcStep ⟨countingTable, RegFile.fill 1024 0, 0⟩).1 = 0xff4005f6 ∧
    (hcStep ⟨countingTable, RegFile.fill 1024 0, 0⟩).2.P.read 0 = 0xff4005f6 ∧
    (hcStep ⟨countingTable, RegFile.fill 1024 0, 0⟩).2.IDX = 1 := by decide +kernel
/-- R217 for j = 1023, by hand: 1023 + Q[1013] + (rotr(Q[1020], 10) ^ rotr(Q[0], 23)) + P[..], where P is zero; `IDX` wraps. -/
theorem test_qStep : (hcStep ⟨RegFile.fill 1024 0, countingTable, 2047⟩).1 = 0xff0007f4 ∧
    (hcStep ⟨RegFile.fill 1024 0, countingTable, 2047⟩).2.Q.read 1023 = 0xff0007f4 ∧
    (hcStep ⟨RegFile.fill 1024 0, countingTable, 2047⟩).2.IDX = 0 := by decide +kernel
/-- R214, by hand: each byte of `x` picks from its own quarter of `Q`. -/
theorem test_h1 : h1 ⟨RegFile.fill 1024 0, countingTable, 0⟩ 0x04030201 = 1 + (256 + 2) + (512 + 3) + (768 + 4) := by
  decide +kernel

/-! ## Commands: the examples of their rules -/

theorem test_construct : response (exec (.construct 2) State.reset) = some [0x00] ∧
    response (exec (.construct 4) State.reset) = some [0x12] := by decide +kernel
/-- R32: the block buffer has `BLOCK_WORDS` words, here of a core whose `HC_BLOCK_WORDS` is 3. -/
theorem test_construct_block : (construct 3 3 State.reset).B = [0, 0, 0] ∧ (construct 3 1 State.reset).B.length = 16 := by
  decide +kernel
/-- The order of R249: no algorithm, key length, IV length, position. -/
theorem test_init_errors : response (exec (.init [] [] 5) State.reset) = some [0x10] ∧
    response (exec (.init [] [] 5) (constructed .hc256)) = some [0x01] ∧
    response (exec (.init key1to32 ivPi 5) (constructed .hc256)) = some [0x02] ∧
    response (exec (.init key1to32 key1to32 5) (constructed .hc256)) = some [0x03] ∧
    response (exec (.init key1to32 ivPi 5) (constructed (.arx .salsa20))) = some [0x00] := by decide +kernel
theorem test_not_ready : [Instr.seek 0, .apply [1, 2], .getpos, .getiv].map (fun i => response (exec i (constructed .hc256))) =
    [some [0x11], some [0x11], some [0x11], some [0x11]] := by decide +kernel
/-- S1, V1: the first bytes of ChaCha20 for the zero key and IV, through INIT and APPLY (R122, R123). -/
theorem test_init_apply : response (exec (.apply (List.replicate 8 0))
      (init 1 (List.replicate 32 0) (List.replicate 8 0) 0 (constructed (.arx .chacha20)))) =
    some [0x00, 0x00, 0x76, 0xb8, 0xe0, 0xad, 0xa0, 0xf1, 0x3d, 0x90] := by decide +kernel
/-- V1 across the block boundary: bytes 63 to 65. -/
theorem test_apply_crosses : response (exec (.apply [0, 0, 0]) (zeroEngine (.arx .chacha20) 63)) =
    some [0x00, 0x86, 0x9f, 0x07] := by decide +kernel
/-- V3 through SEEK (R150). -/
theorem test_seek_apply : response (exec (.apply [0, 0, 0, 0])
      (seek 1 448 (engine (.arx .salsa20) (keyWords ⟨key1to32, rfl⟩) (storeIV ivPi (RegFile.fill 32 0)) 0))) =
    some [0x00, 0x00, 0xa3, 0x05, 0xa2, 0xb9] := by decide +kernel
theorem test_seek_hc256 : response (exec (.seek 1) { constructed .hc256 with READY := true }) = some [0x03] := by decide +kernel
/-- R127: the position, least significant byte first; R150 (c): the last position. -/
theorem test_getpos : response (exec .getpos (zeroEngine (.arx .salsa20) 0x0102030405060708)) =
      some [0x00, 8, 7, 6, 5, 4, 3, 2, 1] ∧
    (zeroEngine (.arx .salsa20) 0xffffffffffffffff).BLOCKINDEX = 0x03ffffffffffffff := by decide +kernel
/-- The example of R128. -/
theorem test_getiv : response (exec .getiv (engine (.arx .salsa20) (RegFile.fill 8 0) (storeIV ivPi (RegFile.fill 32 0)) 0)) =
    some [0x00, 0x08, 0x03, 0x01, 0x04, 0x01, 0x05, 0x09, 0x02, 0x06] := by decide +kernel

/-! ## The assembler -/

/-- Program P2 of 95_test_vectors.md, its first seven lines but GETPOS, and RELEASE (R111). -/
theorem test_assemble : assemble
    [.construct (.name (some (.arx .salsa20))), .init (.seq 1 32) (.hex ivPi) (some 446),
     .encrypt (.ascii ("krypton!".toList.map fun c => BitVec.ofNat 7 c.toNat)), .seek 446, .apply (.ascii []), .keystream 2,
     .release] =
    some [0x01, 0x01,
      0x02, 0x20, 0x01, 0x02, 0x03, 0x04, 0x05, 0x06, 0x07, 0x08, 0x09, 0x0a, 0x0b, 0x0c, 0x0d, 0x0e, 0x0f, 0x10, 0x11, 0x12,
      0x13, 0x14, 0x15, 0x16, 0x17, 0x18, 0x19, 0x1a, 0x1b, 0x1c, 0x1d, 0x1e, 0x1f, 0x20, 0x08, 0x03, 0x01, 0x04, 0x01, 0x05,
      0x09, 0x02, 0x06, 0xbe, 0x01, 0, 0, 0, 0, 0, 0,
      0x04, 0x08, 0, 0, 0, 0x6b, 0x72, 0x79, 0x70, 0x74, 0x6f, 0x6e, 0x21,
      0x03, 0xbe, 0x01, 0, 0, 0, 0, 0, 0, 0x04, 0, 0, 0, 0, 0x04, 0x02, 0, 0, 0, 0, 0, 0x01, 0x00] := by decide +kernel
theorem test_seq_down : asmBytes (.seq 3 1) = [3, 2, 1] := by decide +kernel

/-! ## Witnesses: states and operands that meet the hypotheses of each statement that has some -/

/-- A core whose command stream holds `bs`. -/
def holding (bs : List Byte) : State := { State.reset with cmd := bs }

/-- An engine a ready core may hold, with its look-ahead and streams, for every algorithm. -/
theorem witness_engineInv (c : Cipher) (k : RegFile Word 8) (v : RegFile Byte 32) (bs : List Byte) :
    EngineInv Config.hcBlockWords { engine c k v 0 with cmd := bs } := by
  have hp : c = .hc256 → (0 : Pos) = 0 := fun _ => rfl
  obtain ⟨hb, hi, ho⟩ := holdsBlock_positioned (n := Config.hcBlockWords) k v (constructed c) hp
  have hlt := Nat.mod_lt (0 : Pos).toNat (blockBytes_pos hcBlockWords_pos c)
  refine ⟨?_, ?_, fun h => ?_, fun _ => ⟨c, _, ?_, ?_, hi, ?_⟩⟩
  · cases c <;> exact ⟨rfl, rfl⟩
  · cases c <;> rfl
  · cases c <;> cases h
  · cases c <;> rfl
  · exact ho ▸ hlt
  · cases c <;> exact hb

theorem witness_DecodeOfEncodeIsTheCommand :
    (Instr.init (List.replicate 255 1) (List.replicate 255 2) 0xffffffffffffffff).wellFormed = true ∧
    (Instr.init [] [] 0).wellFormed = true ∧ (Instr.apply []).wellFormed = true ∧
    (Instr.apply (List.replicate (2 ^ 32 - 1) 0)).wellFormed = true ∧ (Instr.construct 0xff).wellFormed = true ∧
    (Instr.seek 0xffffffffffffffff).wellFormed = true ∧ Instr.getpos.wellFormed = true ∧ Instr.getiv.wellFormed = true :=
  ⟨by decide +kernel, by decide, by decide, test_wellFormed_apply_longest, rfl, rfl, rfl, rfl⟩

theorem witness_DecodedCommandIsItsEncoding : decode [0x02, 1, 0xaa, 2, 0xbb, 0xcc, 1, 2, 3, 4, 5, 6, 7, 8, 9] =
    .command (.init [0xaa] [0xbb, 0xcc] 0x0807060504030201) [9] := test_decode_init

/-- Both sides, at the ends of the ranges 0x00, 0x01..0x06, 0x07..0xFF. -/
theorem witness_IllegalOpcodesAreTheUnlistedBytes :
    decode [0x00] = .illegal 0x00 [] ∧ decode [0x07] = .illegal 0x07 [] ∧ decode [0xff] = .illegal 0xff [] ∧
    decode [0x01] ≠ .illegal 0x01 [] ∧ decode [0x06] ≠ .illegal 0x06 [] := by decide

/-- A command, a stream one byte short of its length, and a stream without its length field. -/
theorem witness_FrameLengthDecidesConsumption :
    decode [0x04, 1, 0, 0, 0, 9] = .command (.apply [9]) [] ∧
    decode [0x04, 1, 0, 0, 0] = .incomplete ∧ frameLength [0x04, 1, 0, 0, 0] = some 6 ∧
    decode [0x02, 1, 0xaa] = .incomplete ∧ frameLength [0x02, 1, 0xaa] = none := by decide +kernel

theorem witness_StepRunsTheDecodedCommand : (holding [0x05, 0x06]).RESET = false ∧ (holding [0x05, 0x06]).HALTED = false ∧
    decode (holding [0x05, 0x06]).cmd = .command .getpos [0x06] := ⟨rfl, rfl, test_decode_getpos⟩

/-- A free core before each end of the illegal ranges, a halted core, and a halted core that takes a reset. -/
theorem witness_IllegalOpcodeHaltsUntilReset :
    ((holding [0x00]).RESET = false ∧ (holding [0x00]).HALTED = false ∧ (0 : Byte) = 0 ∧ 7 ≤ (0x07 : Byte).toNat ∧
      7 ≤ (0xff : Byte).toNat) ∧
    (({ State.reset with HALTED := true }).RESET = false ∧ ({ State.reset with HALTED := true }).HALTED = true) ∧
    (({ State.reset with HALTED := true, RESET := true }).HALTED = true ∧
      step { State.reset with HALTED := true, RESET := true } = .next State.reset) :=
  ⟨⟨rfl, rfl, rfl, by decide, by decide⟩, ⟨rfl, rfl⟩, rfl, step_reset rfl⟩

/-- A short command of fixed length, one whose length field is missing, and bytes that complete a command. -/
theorem witness_IncompleteCommandWaits :
    ((holding [0x01]).RESET = false ∧ (holding [0x01]).HALTED = false ∧ 1 ≤ (0x01 : Byte).toNat ∧ (0x01 : Byte).toNat ≤ 6 ∧
      ∀ L, frameLength (holding [0x01]).cmd = some L → (holding [0x01]).cmd.length < L) ∧
    (1 ≤ (0x04 : Byte).toNat ∧ (0x04 : Byte).toNat ≤ 6 ∧
      ∀ L, frameLength (holding [0x04, 0, 0, 0]).cmd = some L → (holding [0x04, 0, 0, 0]).cmd.length < L) ∧
    ((Instr.construct 2).wellFormed = true ∧ (holding [0x01]).cmd ++ [0x02, 0x05] = encode (.construct 2) ++ [0x05]) := by
  have h1 : frameLength (holding [0x01]).cmd = some 2 := by decide
  have h4 : frameLength (holding [0x04, 0, 0, 0]).cmd = none := by decide
  refine ⟨⟨rfl, rfl, by decide, by decide, fun L hL => ?_⟩, ⟨by decide, by decide, fun L hL => ?_⟩, rfl, rfl⟩
  · rw [h1, Option.some.injEq] at hL
    subst hL
    decide
  · rw [h4] at hL
    cases hL

theorem witness_ResetClearsEverything : ({ State.reset with HALTED := true, RESET := true }).HALTED = true ∧
    step { State.reset with HALTED := true, RESET := true } = .next State.reset ∧ State.reset.HALTED = false :=
  ⟨rfl, step_reset rfl, rfl⟩

/-- Each way a run can end. -/
theorem witness_RunEndsExactlyWhenNoStepIsEnabled :
    step { State.reset with HALTED := true } = .fault .halted ∧ step State.reset = .fault .commandStreamEmpty ∧
    step (holding [0x01]) = .fault .commandIncomplete := ⟨rfl, rfl, rfl⟩

/-- A core with a response to drain, from no byte of it to all. -/
theorem witness_StepIgnoresWhenTheHostActs :
    let s : State := { holding [0x05] with rsp := [1, 2] }
    s.RESET = false ∧ (∃ t, step s = .next t) ∧ 0 ≤ s.rsp.length ∧ 2 ≤ s.rsp.length :=
  ⟨rfl, ⟨_, rfl⟩, by decide, by decide⟩

theorem witness_CursorsCountTheStreams : (holding [0x05]).RESET = false ∧ ∃ t, step (holding [0x05]) = .next t := ⟨rfl, _, rfl⟩

theorem witness_StreamRunsItsCommands :
    (∀ i ∈ [Instr.construct 2, .getpos], i.wellFormed = true) ∧ (holding [0x01, 0x02, 0x05, 0x06]).RESET = false ∧
    (holding [0x01, 0x02, 0x05, 0x06]).HALTED = false ∧
    (holding [0x01, 0x02, 0x05, 0x06]).cmd = [Instr.construct 2, .getpos].flatMap encode ++ [0x06] :=
  ⟨by decide, rfl, rfl, rfl⟩

theorem witness_FailingCommandChangesNothing : ∃ t, exec (.seek 1) (constructed .hc256) = .next t ∧
    t.rsp = (constructed .hc256).rsp ++ 0x11 :: [] ∧ (0x11 : Byte) ≠ 0x00 := ⟨_, rfl, rfl, by decide⟩

/-- Every code the clauses tell apart, at the ends of their ranges, with the size of the block buffer. -/
theorem witness_ConstructReleasesAndSelects : 3 < (4 : Byte).toNat ∧ 3 < (255 : Byte).toNat ∧ ¬ 3 < (3 : Byte).toNat ∧
    (zeroBlock Config.hcBlockWords none).length = 16 ∧ (zeroBlock Config.hcBlockWords (some (.arx .salsa20))).length = 16 ∧
    (zeroBlock Config.hcBlockWords (some (.arx .chacha20))).length = 16 ∧
    (zeroBlock Config.hcBlockWords (some .hc256)).length = Config.hcBlockWords :=
  ⟨by decide, by decide, by decide, rfl, rfl, rfl, List.length_replicate⟩

/-- One state and one set of operands for each clause. -/
theorem witness_InitStoresKeyAndPositions :
    State.reset.ALG = none ∧ (constructed .hc256).ALG = some .hc256 ∧ (constructed (.arx .salsa20)).ALG = some (.arx .salsa20) ∧
    (List.replicate 31 (0 : Byte)).length ≠ 32 ∧ key1to32.length = 32 ∧ ivPi.length ≠ ivBytes .hc256 ∧
    key1to32.length = ivBytes .hc256 ∧ (1 : Pos) ≠ 0 ∧ ivPi.length = ivBytes (.arx .salsa20) ∧
    ((Cipher.hc256 = .hc256) → (0 : Pos) = 0) ∧ ((Cipher.arx .salsa20) = .hc256 → (0xffffffffffffffff : Pos) = 0) := by
  refine ⟨rfl, rfl, rfl, by decide, rfl, by decide, rfl, by decide, rfl, fun _ => rfl, fun h => by cases h⟩

theorem witness_SeekRepositionsTheEngine :
    (constructed .hc256).READY = false ∧ State.reset.ALG = none ∧
    (engine .hc256 (RegFile.fill 8 0) (RegFile.fill 32 0) 0).READY = true ∧
    (engine .hc256 (RegFile.fill 8 0) (RegFile.fill 32 0) 0).ALG = some .hc256 ∧ (1 : Pos) ≠ 0 ∧
    (zeroEngine (.arx .chacha20) 0).READY = true ∧ (zeroEngine (.arx .chacha20) 0).ALG = some (.arx .chacha20) ∧
    ((Cipher.arx .chacha20) = .hc256 → (0xffffffffffffffff : Pos) = 0) := by
  refine ⟨rfl, rfl, rfl, rfl, by decide, rfl, rfl, fun h => by cases h⟩

/-- An HC-256 engine right after an INIT, and the same engine again. -/
theorem witness_SeekZeroRestartsHc256 : ∃ s u : State, s.ALG = some .hc256 ∧ key1to32.length = 32 ∧
    exec (.init key1to32 key1to32 0) s = .next u ∧ u.READY = true ∧ u.ALG = some .hc256 := by
  have h := init_accepted Config.hcBlockWords (s := constructed .hc256) (c := .hc256) (key := key1to32) (iv := key1to32) (pos := 0)
    rfl rfl rfl fun _ => rfl
  exact ⟨constructed .hc256, _, rfl, rfl, congrArg Host.Outcome.next h, rfl, rfl⟩

/-- The last byte of a block, and a byte before it. -/
theorem witness_ApplyXorsTheKeystream :
    (constructed .hc256).READY = false ∧ (zeroEngine (.arx .chacha20) 63).READY = true ∧
    (zeroEngine (.arx .chacha20) 63).ALG = some (.arx .chacha20) ∧
    ((zeroEngine (.arx .chacha20) 63).BLOCKOFFSET + 1 = blockBytes Config.hcBlockWords (.arx .chacha20) ∧
      ∃ w, (zeroEngine (.arx .chacha20) 63).B[(zeroEngine (.arx .chacha20) 63).BLOCKOFFSET / 4]? = some w) ∧
    (zeroEngine (.arx .chacha20) 62).BLOCKOFFSET + 1 ≠ blockBytes Config.hcBlockWords (.arx .chacha20) := by
  have h : ((zeroEngine (.arx .chacha20) 63).B[(zeroEngine (.arx .chacha20) 63).BLOCKOFFSET / 4]?).isSome = true := by
    decide +kernel
  exact ⟨rfl, rfl, rfl, ⟨rfl, Option.isSome_iff_exists.mp h⟩, by decide⟩

theorem witness_GetposReportsThePosition : (constructed .hc256).READY = false ∧ State.reset.ALG = none ∧
    (zeroEngine (.arx .salsa20) 5).READY = true ∧ (zeroEngine (.arx .salsa20) 5).ALG = some (.arx .salsa20) := ⟨rfl, rfl, rfl, rfl⟩

theorem witness_GetivReportsTheIV : (constructed .hc256).READY = false ∧
    ((zeroEngine (.arx .salsa20) 5).READY = true ∧ (zeroEngine (.arx .salsa20) 5).ALG = some (.arx .salsa20)) ∧
    ((engine .hc256 (RegFile.fill 8 0) (RegFile.fill 32 0) 0).READY = true ∧
      (engine .hc256 (RegFile.fill 8 0) (RegFile.fill 32 0) 0).ALG = some .hc256) := ⟨rfl, ⟨rfl, rfl⟩, rfl, rfl⟩

theorem witness_PositionCountsBytes :
    ((constructed .hc256).ALG = some .hc256 ∧ key1to32.length = 32 ∧ key1to32.length = ivBytes .hc256 ∧
      (Cipher.hc256 = .hc256 → (0 : Pos) = 0)) ∧
    ((zeroEngine (.arx .salsa20) 5).READY = true ∧ (zeroEngine (.arx .salsa20) 5).ALG = some (.arx .salsa20) ∧
      (zeroEngine (.arx .salsa20) 63).BLOCKOFFSET < blockBytes Config.hcBlockWords (.arx .salsa20)) :=
  ⟨⟨rfl, rfl, rfl, fun _ => rfl⟩, rfl, rfl, by decide⟩

/-- A command that meets every clause's hypothesis, on an engine that is not ready and on one that is. -/
theorem witness_RegistersHaveOnlyTheirWriters :
    (∃ t, exec .getpos (constructed (.arx .salsa20)) = .next t) ∧ (∀ alg, Instr.getpos ≠ .construct alg) ∧
    (∀ key iv pos, Instr.getpos ≠ .init key iv pos) ∧ (constructed (.arx .salsa20)).READY = false ∧
    (constructed (.arx .salsa20)).ALG ≠ some .hc256 ∧ (zeroEngine (.arx .salsa20) 0).READY = true :=
  ⟨⟨_, rfl⟩, (fun _ h => by cases h), (fun _ _ _ h => by cases h), rfl, by decide, rfl⟩

/-- Two engines that differ in the key and the block. -/
theorem witness_OnlyApplyShowsSecrets :
    let s := engine (.arx .salsa20) (RegFile.fill 8 0) (RegFile.fill 32 0) 0
    let t := engine (.arx .salsa20) (RegFile.fill 8 1) (RegFile.fill 32 0) 0
    (∀ data, Instr.getiv ≠ .apply data) ∧ s.ALG = t.ALG ∧ s.READY = t.READY ∧ s.BLOCKINDEX = t.BLOCKINDEX ∧
    s.BLOCKOFFSET = t.BLOCKOFFSET ∧ s.IVB = t.IVB ∧ s.K ≠ t.K :=
  ⟨(fun _ h => by cases h), rfl, rfl, rfl, rfl, rfl, by decide +kernel⟩

theorem witness_ApplyTreatsBytesSeparately : (zeroEngine (.arx .salsa20) 0).READY = true ∧
    (zeroEngine (.arx .salsa20) 0).ALG ≠ none ∧ ([1, 2] : List Byte).length = ([3, 4] : List Byte).length :=
  ⟨rfl, by decide, rfl⟩

/-- Four distinct lanes, for both quarter-rounds. -/
theorem witness_SalsaQuarterRound_ChachaQuarterRound : (0 : Fin 16) ≠ 4 ∧ (0 : Fin 16) ≠ 8 ∧ (0 : Fin 16) ≠ 12 ∧ (4 : Fin 16) ≠ 8 ∧
    (4 : Fin 16) ≠ 12 ∧ (8 : Fin 16) ≠ 12 := by decide

/-- The rounds are the lists of the statement; a quadruple of one, another order of it, and lanes that agree on it. -/
theorem witness_QuarterRoundsOfARoundCommute :
    salsaRows = [⟨0, 1, 2, 3⟩, ⟨5, 6, 7, 4⟩, ⟨10, 11, 8, 9⟩, ⟨15, 12, 13, 14⟩] ∧
    chachaDiagonals = [⟨0, 5, 10, 15⟩, ⟨1, 6, 11, 12⟩, ⟨2, 7, 8, 13⟩, ⟨3, 4, 9, 14⟩] ∧
    (⟨0, 1, 2, 3⟩ : Quad) ∈ salsaRows ∧ salsaRows.reverse.Perm salsaRows ∧
    (0 : Fin 16) ∉ ([5, 6, 7, 4] : List (Fin 16)) ∧
    (∀ i ∈ ([5, 6, 7, 4] : List (Fin 16)), (column0 1 0 0 0).read i = (RegFile.fill 16 0 : Lanes).read i) := by
  refine ⟨rfl, rfl, by decide, List.reverse_perm _, by decide, by decide +kernel⟩

/-- Another state of the same key, index and first eight IV bytes. -/
theorem witness_StreamBlockIsAFunctionOfKeyIvIndex :
    let s := zeroEngine (.arx .salsa20) 0
    let t := engine (.arx .salsa20) (RegFile.fill 8 0) ((RegFile.fill 32 0).write 8 1) 0
    t.K = s.K ∧ t.BLOCKINDEX = s.BLOCKINDEX ∧ t.IVB ≠ s.IVB ∧ ∀ i : Fin 32, i.val < 8 → t.IVB.read i = s.IVB.read i := by
  refine ⟨rfl, rfl, by decide +kernel, fun i hi => ?_⟩
  exact RegFile.read_write_other _ _ fun h => by rw [← h] at hi; exact absurd hi (by decide)

theorem witness_MemoryHoldsWhatWasWritten : (1022 : Fin 1024) ≠ 1023 ∧ (0 : Byte).toNat ≤ 3 ∧ (3 : Byte).toNat ≤ 3 := by decide

/-- The ends of both halves of the cursor. -/
theorem witness_HcStepUpdatesOneWord : (0 : BitVec 11).toNat < 1024 ∧ (1023 : BitVec 11).toNat < 1024 ∧
    1024 ≤ (1024 : BitVec 11).toNat ∧ 1024 ≤ (2047 : BitVec 11).toNat := by decide

theorem witness_ExpansionMeetsTheRecurrence : (16 ≤ 16 ∧ 16 < 2660) ∧ (16 ≤ 2659 ∧ 2659 < 2660) := by decide

theorem witness_HcInitDependsOnKeyAndIvAlone :
    let t := { zeroEngine (.arx .salsa20) 0 with W := RegFile.fill 2660 7 }
    (zeroEngine (.arx .salsa20) 5).K = t.K ∧ (zeroEngine (.arx .salsa20) 5).IVB = t.IVB := ⟨rfl, rfl⟩

/-- A ready HC-256 engine with a command to run. -/
theorem witness_StepKeepsTheEngineInvariant :
    let s := { engine .hc256 (RegFile.fill 8 0) (RegFile.fill 32 0) 0 with cmd := [0x04, 1, 0, 0, 0, 9] }
    EngineInv Config.hcBlockWords s ∧ ∃ t, step s = .next t :=
  ⟨witness_engineInv .hc256 _ _ _, _, step_command rfl rfl (rest := []) (i := .apply [9]) (by decide +kernel)⟩

theorem witness_HostKeepsTheEngineInvariant (c : Cipher) :
    EngineInv Config.hcBlockWords { engine c (RegFile.fill 8 0) (RegFile.fill 32 0) 0 with cmd := [] } := witness_engineInv c _ _ _

/-- A ready engine of each algorithm that holds its block, and a position up to the end of the position space. -/
theorem witness_ApplyOutputsTheKeystream (c : Cipher) :
    let s := { engine c (RegFile.fill 8 0) (RegFile.fill 32 0) 0 with cmd := [] }
    EngineInv Config.hcBlockWords s ∧ s.READY = true ∧ s.ALG = some c ∧ holdsBlock Config.hcBlockWords c s s.BLOCKINDEX.toNat ∧
    absolutePosition Config.hcBlockWords c s + ([1, 2, 3] : List Byte).length ≤ 2 ^ 64 := by
  have hp : c = .hc256 → (0 : Pos) = 0 := fun _ => rfl
  obtain ⟨hb, hi, ho⟩ := holdsBlock_positioned (n := Config.hcBlockWords) (RegFile.fill 8 0) (RegFile.fill 32 0) (constructed c) hp
  have h0 : (0 : Pos).toNat = 0 := rfl
  rw [h0, Nat.zero_div] at hb hi
  rw [h0, Nat.zero_mod] at ho
  have hidx : (engine c (RegFile.fill 8 0) (RegFile.fill 32 0) 0).BLOCKINDEX.toNat = 0 := congrArg BitVec.toNat hi
  refine ⟨witness_engineInv c _ _ _, by cases c <;> rfl, by cases c <;> rfl, ?_, ?_⟩
  · show holdsBlock _ c _ (engine c (RegFile.fill 8 0) (RegFile.fill 32 0) 0).BLOCKINDEX.toNat
    rw [hidx]
    cases c <;> exact hb
  · show (engine c (RegFile.fill 8 0) (RegFile.fill 32 0) 0).BLOCKINDEX.toNat * _ +
      (engine c (RegFile.fill 8 0) (RegFile.fill 32 0) 0).BLOCKOFFSET + 3 ≤ _
    rw [hidx, Nat.zero_mul, Nat.zero_add, show (engine c _ _ 0).BLOCKOFFSET = 0 from ho]
    decide

/-- The last byte of the position space. -/
theorem witness_ApplyOutputsTheKeystream_last :
    absolutePosition Config.hcBlockWords (.arx .salsa20) (zeroEngine (.arx .salsa20) 0xffffffffffffffff) +
      ([1] : List Byte).length = 2 ^ 64 := by decide

theorem witness_SplitApplyEqualsWholeApply : (zeroEngine (.arx .salsa20) 63).READY = true ∧
    (zeroEngine (.arx .salsa20) 63).ALG ≠ none := ⟨rfl, by decide⟩

/-- Two engines of one algorithm with different histories and block sizes. -/
theorem witness_RoundTripAndDeterminism : 0 < 1 ∧ 0 < 16 ∧ (constructed .hc256).ALG = some .hc256 ∧
    ({ zeroEngine (.arx .salsa20) 63 with ALG := some .hc256 }).ALG = some .hc256 ∧ key1to32.length = 32 ∧
    key1to32.length = ivBytes .hc256 ∧ (Cipher.hc256 = .hc256 → (0 : Pos) = 0) :=
  ⟨by decide, by decide, rfl, rfl, rfl, rfl, fun _ => rfl⟩

theorem witness_PositionalInitIsInitThenSeek :
    ((constructed (.arx .salsa20)).ALG = some (.arx .salsa20) ∧ key1to32.length = 32 ∧ ivPi.length = 8) ∧
    ((constructed .hc256).ALG = some .hc256 ∧ key1to32.length = 32 ∧ (1 : Pos) ≠ 0) :=
  ⟨⟨rfl, rfl, rfl⟩, rfl, rfl, by decide⟩

theorem witness_SeekEquivalence : (constructed (.arx .chacha20)).ALG = some (.arx .chacha20) ∧ key1to32.length = 32 ∧
    ivPi.length = 8 ∧ (0xffffffffffffffff : Pos).toNat + 1 ≤ 2 ^ 64 ∧ (0 : Pos).toNat + 64 ≤ 2 ^ 64 :=
  ⟨rfl, rfl, rfl, by decide, by decide⟩

theorem witness_ResponsesDoNotDependOnHcBlockWords : 0 < 1 ∧ 0 < 16 ∧ State.reset.READY = false :=
  ⟨by decide, by decide, rfl⟩

/-- Two engines that are not ready and hold different keys. -/
theorem witness_UnwrittenStateIsNeverObserved :
    let s := constructed .hc256
    let t := { constructed .hc256 with K := RegFile.fill 8 1 }
    s.READY = false ∧ t.READY = false ∧ s.ALG = t.ALG ∧ s.K ≠ t.K := ⟨rfl, rfl, rfl, by decide +kernel⟩

/-- A program that is assembled, the longest IV that can be, and the shortest that cannot. -/
theorem witness_AssembledProgramsAreCommands : assemble [.getpos, .release] = some [0x05, 0x01, 0x00] ∧
    asmLine (.init (.zeros 32) (.zeros 255) none) ≠ none ∧
    asmLine (.init (.zeros 32) (.zeros 256) none) = none ∧ 255 < (asmBytes (.zeros 256)).length := by decide +kernel

theorem witness_PseudoInstructionsExpand : (asmBytes (.zeros 0)).length < 2 ^ 32 ∧
    (asmBytes (.zeros (2 ^ 32 - 1))).length < 2 ^ 32 := by
  simp only [asmBytes, List.length_replicate]
  decide

/-- Two ready engines of one key, IV and position, with different block sizes and histories, and two that are not ready. -/
theorem witness_CommandsKeepEnginesAlike (c : Cipher) (k : RegFile Word 8) (v : RegFile Byte 32) :
    0 < 1 ∧ 0 < 16 ∧
    Alike 1 16 (positioned 1 c k v 0 (constructed c)) (positioned 16 c k v 0 { zeroEngine c 0 with cmd := [0x05] }) ∧
    (positioned 1 c k v 0 (constructed c)).READY = true ∧
    Alike 1 16 (constructed c) { constructed c with K := k } := by
  have hp : c = .hc256 → (0 : Pos) = 0 := fun _ => rfl
  obtain ⟨hb, hi, ho⟩ := holdsBlock_positioned (n := 1) k v (constructed c) hp
  obtain ⟨hb', hi', ho'⟩ := holdsBlock_positioned (n := 16) k v { zeroEngine c 0 with cmd := [0x05] } hp
  have h0 : (0 : Pos).toNat = 0 := rfl
  have hpos1 : 0 < blockBytes 1 c := blockBytes_pos (by decide) c
  have hpos16 : 0 < blockBytes 16 c := blockBytes_pos (by decide) c
  refine ⟨by decide, by decide, ⟨by cases c <;> rfl, by cases c <;> rfl, fun _ => ?_⟩, by cases c <;> rfl,
    ⟨rfl, rfl, fun h => by cases h⟩⟩
  rw [h0, Nat.zero_div] at hb hi hb' hi'
  rw [h0, Nat.zero_mod] at ho ho'
  refine ⟨c, 0, 0, by cases c <;> rfl, by cases c <;> rfl, by cases c <;> exact fun _ _ => rfl, ⟨?_, hi, hb⟩, ⟨?_, hi', hb'⟩, ?_⟩
  · rw [ho]
    exact hpos1
  · rw [ho']
    exact hpos16
  · rw [ho, ho', Nat.zero_mul, Nat.zero_mul]

theorem witness_PartsOfAnApplyAnswerAlike : (zeroEngine (.arx .salsa20) 63).READY = true ∧
    (zeroEngine (.arx .salsa20) 63).ALG ≠ none := ⟨rfl, by decide⟩

end Sys2Proof.Tests
end

section
/-!
PROOFS of the statements about 10_state.md. First the rules they share: what a decoded command's bytes are, what one command can
do, and what two cores do with the same command.
-/

namespace Sys2Proof

open Sys2Proof.Machine

/-! ## The bytes of a command -/

theorem encode_length (i : Instr) : (encode i).length = commandLength i := by
  cases i with
  | construct alg => exact Laws.EncodedLength.construct alg
  | init key iv pos => exact Laws.EncodedLength.init key iv pos
  | seek pos => exact Laws.EncodedLength.seek pos
  | apply data => exact Laws.EncodedLength.apply data
  | getpos => exact Laws.EncodedLength.getpos
  | getiv => exact Laws.EncodedLength.getiv

theorem encode_ne_nil (i : Instr) : encode i ≠ [] := by cases i <;> exact List.cons_ne_nil _ _

/-- A decoded command is well formed, and its encoding is the bytes it was decoded from (30_encoding.md R91 to R98). -/
theorem decode_command {bs rest : List Byte} {i : Instr} (h : decode bs = .command i rest) :
    i.wellFormed = true ∧ bs = encode i ++ rest := by
  obtain ⟨op, tail, rfl, hp⟩ := decode_eq_command.mp h
  cases op with
  | construct =>
    obtain ⟨alg, rfl, rfl⟩ := parseConstruct_eq_some.mp hp
    exact ⟨rfl, rfl⟩
  | init =>
    obtain ⟨key, iv, pos, rfl, hk, hv, rfl⟩ := parseInit_eq_some.mp hp
    exact ⟨by simpa [Instr.wellFormed] using ⟨hk, hv⟩, by simp [encode]⟩
  | seek =>
    obtain ⟨pos, rfl, rfl⟩ := parseSeek_eq_some.mp hp
    exact ⟨rfl, rfl⟩
  | apply =>
    obtain ⟨data, rfl, hlen, rfl⟩ := parseApply_eq_some.mp hp
    exact ⟨by simpa [Instr.wellFormed] using hlen, by simp [encode]⟩
  | getpos =>
    obtain ⟨rfl, rfl⟩ := Prod.mk.inj (Option.some.inj hp)
    exact ⟨rfl, rfl⟩
  | getiv =>
    obtain ⟨rfl, rfl⟩ := Prod.mk.inj (Option.some.inj hp)
    exact ⟨rfl, rfl⟩

end Sys2Proof

namespace Sys2Proof.Machine

open Sys2Proof.Safety

/-! ## Rules of the state's operations -/

@[simp] theorem positioned_ALG (n : Nat) (c : Cipher) (k : RegFile Word 8) (v : RegFile Byte 32) (pos : Pos) (s : State) :
    (positioned n c k v pos s).ALG = s.ALG := by cases c <;> rfl

@[simp] theorem positioned_READY (n : Nat) (c : Cipher) (k : RegFile Word 8) (v : RegFile Byte 32) (pos : Pos) (s : State) :
    (positioned n c k v pos s).READY = true := by cases c <;> rfl

@[simp] theorem positioned_K (n : Nat) (c : Cipher) (k : RegFile Word 8) (v : RegFile Byte 32) (pos : Pos) (s : State) :
    (positioned n c k v pos s).K = k := by cases c <;> rfl

@[simp] theorem positioned_IVB (n : Nat) (c : Cipher) (k : RegFile Word 8) (v : RegFile Byte 32) (pos : Pos) (s : State) :
    (positioned n c k v pos s).IVB = v := by cases c <;> rfl

@[simp] theorem positioned_rsp (n : Nat) (c : Cipher) (k : RegFile Word 8) (v : RegFile Byte 32) (pos : Pos) (s : State) :
    (positioned n c k v pos s).rsp = s.rsp := by cases c <;> rfl

/-- Salsa20 and ChaCha20 are positioned without the tables and the scratch memory (10_state.md R35). -/
theorem positioned_tables {n : Nat} {c : Cipher} (k : RegFile Word 8) (v : RegFile Byte 32) (pos : Pos) (s : State)
    (hc : c ≠ .hc256) : (positioned n c k v pos s).tab = s.tab ∧ (positioned n c k v pos s).W = s.W := by
  cases c with
  | arx a => exact ⟨rfl, rfl⟩
  | hc256 => exact absurd rfl hc

/-- Files that agree below an index have the same elements up to it. -/
theorem RegFile.take_elems_congr {α : Type} {n k : Nat} {f g : RegFile α n} (h : ∀ i : Fin n, i.val < k → f.read i = g.read i) :
    f.elems.take k = g.elems.take k := by
  apply List.ext_getElem (by simp only [List.length_take, f.size, g.size])
  intro i hf _
  simp only [List.length_take, f.size] at hf
  rw [List.getElem_take, List.getElem_take]
  exact h ⟨i, by omega⟩ (by simp only; omega)

/-! What advancing past bytes keeps, field by field. -/

@[simp] theorem iterate_advanceByte_ALG (n : Nat) (c : Cipher) (k : Nat) (s : State) :
    ((advanceByte n c)^[k] s).ALG = s.ALG := (congrArg State.ALG (iterate_advanceByte_frame n c k s) :)

@[simp] theorem iterate_advanceByte_READY (n : Nat) (c : Cipher) (k : Nat) (s : State) :
    ((advanceByte n c)^[k] s).READY = s.READY := (congrArg State.READY (iterate_advanceByte_frame n c k s) :)

@[simp] theorem iterate_advanceByte_W (n : Nat) (c : Cipher) (k : Nat) (s : State) :
    ((advanceByte n c)^[k] s).W = s.W := (congrArg State.W (iterate_advanceByte_frame n c k s) :)

@[simp] theorem iterate_advanceByte_rsp (n : Nat) (c : Cipher) (k : Nat) (s : State) :
    ((advanceByte n c)^[k] s).rsp = s.rsp := (congrArg State.rsp (iterate_advanceByte_frame n c k s) :)

/-- The add-rotate-xor ciphers never write the tables (10_state.md R35). -/
theorem iterate_advanceByte_tab {c : Cipher} (n k : Nat) (s : State) (hc : c ≠ .hc256) :
    ((advanceByte n c)^[k] s).tab = s.tab := by
  induction k with
  | zero => rfl
  | succ k ih =>
    rw [Function.iterate_succ_apply', ← ih, advanceByte_eq]
    cases c with
    | arx a => split_ifs <;> rfl
    | hc256 => exact absurd rfl hc

/-- A block boundary finds and leaves the scratch lanes zero (10_state.md R33). -/
theorem iterate_advanceByte_lanesClear (n : Nat) (c : Cipher) (k : Nat) {s : State}
    (h : s.X = RegFile.fill 16 0 ∧ s.S = RegFile.fill 16 0) :
    ((advanceByte n c)^[k] s).X = RegFile.fill 16 0 ∧ ((advanceByte n c)^[k] s).S = RegFile.fill 16 0 := by
  induction k with
  | zero => exact h
  | succ k ih =>
    rw [Function.iterate_succ_apply', advanceByte_eq]
    split_ifs
    · cases c with
      | arx a => exact ⟨rfl, rfl⟩
      | hc256 => exact ih
    · exact ih

/-! The position (10_state.md R28): what INIT and SEEK set, and how the advance past bytes moves it. -/

@[simp] theorem positionView_rspWrite (n : Nat) (c : Cipher) (bs : List Byte) (s : State) :
    positionView n c (rspWrite bs s) = positionView n c s := rfl

theorem positionView_positioned {n : Nat} {c : Cipher} (k : RegFile Word 8) (v : RegFile Byte 32) {pos : Pos} (s : State)
    (hp : c = .hc256 → pos = 0) : positionView n c (positioned n c k v pos s) = pos := by
  obtain ⟨-, hidx, hoff⟩ := holdsBlock_positioned (n := n) k v s hp
  rw [positionView_eq hidx, hoff, Nat.div_add_mod', BitVec.ofNat_toNat, BitVec.setWidth_eq]

/-- Across a block boundary as inside a block, one byte further is one position further. -/
theorem positionView_advanceByte (n : Nat) (c : Cipher) (s : State) :
    positionView n c (advanceByte n c s) = positionView n c s + 1 := by
  have hidx : s.BLOCKINDEX = BitVec.ofNat 64 s.BLOCKINDEX.toNat := by simp
  have hstep : ∀ p : Nat, BitVec.ofNat 64 (p + 1) = BitVec.ofNat 64 p + 1 := fun p => by simp [BitVec.ofNat_add]
  rw [positionView_eq hidx, ← hstep, advanceByte_eq]
  split_ifs with he
  · have hnext : (atNextBlock n c s).BLOCKINDEX = BitVec.ofNat 64 (s.BLOCKINDEX.toNat + 1) := by
      rw [hstep, ← hidx]
      cases c <;> rfl
    have hzero : (atNextBlock n c s).BLOCKOFFSET = 0 := by cases c <;> rfl
    rw [positionView_eq hnext, hzero, Nat.succ_mul, ← he, Nat.add_zero, Nat.add_assoc]
  · rw [positionView_eq (s := { s with BLOCKOFFSET := s.BLOCKOFFSET + 1 }) hidx, Nat.add_assoc]

theorem positionView_iterate_advanceByte (n : Nat) (c : Cipher) (k : Nat) (s : State) :
    positionView n c ((advanceByte n c)^[k] s) = positionView n c s + BitVec.ofNat 64 k := by
  induction k with
  | zero => simp
  | succ k ih => rw [Function.iterate_succ_apply', positionView_advanceByte, ih, BitVec.add_assoc, BitVec.ofNat_add]; rfl

/-! ## What one command can do -/

/-- The ways a command can end, with the state it leaves: an error; or its effect, of which only what the algorithm decides is
left open (40_keystream_engine.md R120 to R128, 41_seekable.md R150). -/
inductive CommandOutcome (n : Nat) (s : State) : Instr → State → Prop
  | failed (i : Instr) (e : Status) : CommandOutcome n s i (raise e s)
  | constructed (code : Byte) (alg : Option Cipher) :
    CommandOutcome n s (.construct code) (rspWrite [statusCode .ok] (selectAlg n alg (release s)))
  | initialized (key iv : List Byte) (pos : Pos) (c : Cipher) (k : RegFile Word 8) (v : RegFile Byte 32)
    (alg : s.ALG = some c) (start : c = .hc256 → pos = 0) :
    CommandOutcome n s (.init key iv pos) (rspWrite [statusCode .ok] (positioned n c k v pos s))
  | repositioned (pos : Pos) (c : Cipher) (ready : s.READY = true) (alg : s.ALG = some c) (start : c = .hc256 → pos = 0) :
    CommandOutcome n s (.seek pos) (rspWrite [statusCode .ok] (positioned n c s.K s.IVB pos s))
  | applied (data : List Byte) (c : Cipher) (ready : s.READY = true) (alg : s.ALG = some c) :
    CommandOutcome n s (.apply data)
      (rspWrite (statusCode .ok :: outputBytes n c data s) ((advanceByte n c)^[data.length] s))
  | reported (i : Instr) (out : List Byte) : CommandOutcome n s i (rspWrite out s)

/-- Every command ends in one of these ways. -/
theorem command_outcome (n : Nat) (i : Instr) (s : State) : CommandOutcome n s i (command n i s) := by
  cases i with
  | construct alg =>
    obtain ⟨-, h⟩ | ⟨-, h⟩ := construct_cases n alg s <;> rw [command, h]
    · exact .failed _ _
    · exact .constructed _ _
  | init key iv pos =>
    obtain ⟨e, -, h⟩ | ⟨c, _, halg, -, hp, h⟩ := init_cases n key iv pos s <;> rw [command, h]
    · exact .failed _ _
    · exact .initialized _ _ _ _ _ _ halg hp
  | seek pos =>
    obtain ⟨e, -, h⟩ | ⟨c, hr, hp, h⟩ := seek_cases n pos s <;> rw [command, h]
    · exact .failed _ _
    · obtain ⟨hready, halg⟩ := readyCipher_eq_some.mp hr
      exact .repositioned _ _ hready halg hp
  | apply data =>
    cases hr : readyCipher s with
    | none => rw [command, apply_notReady n data hr]; exact .failed _ _
    | some c =>
      obtain ⟨hready, halg⟩ := readyCipher_eq_some.mp hr
      rw [command, apply_accepted n data hr]
      exact .applied _ _ hready halg
  | getpos =>
    cases hr : readyCipher s with
    | none => rw [command, getpos_notReady n hr]; exact .failed _ _
    | some c => rw [command, getpos_accepted n hr]; exact .reported _ _
  | getiv =>
    cases hr : readyCipher s with
    | none => rw [command, getiv_notReady hr]; exact .failed _ _
    | some c => rw [command, getiv_accepted hr]; exact .reported _ _

/-- What a next state of `exec` is. -/
theorem exec_outcome {i : Instr} {s t : State} (h : exec i s = .next t) : CommandOutcome Config.hcBlockWords s i t := by
  rw [exec_eq_command, Host.Outcome.next.injEq] at h
  exact h ▸ command_outcome _ i s

/-! ## What two cores do with the same command

Their `HC_BLOCK_WORDS` are `n` and `m`. A command's checks read `ALG` and `READY` alone, so that cores which agree on these
either both fail with one error or both accept. -/

theorem construct_cases_both (n m : Nat) (code : Byte) (s t : State) :
    (∃ e, construct n code s = raise e s ∧ construct m code t = raise e t) ∨
    ∃ alg, construct n code s = rspWrite [statusCode .ok] (selectAlg n alg (release s)) ∧
      construct m code t = rspWrite [statusCode .ok] (selectAlg m alg (release t)) := by
  obtain ⟨h, hs⟩ | ⟨h, hs⟩ := construct_cases n code s <;> obtain ⟨h', ht⟩ | ⟨h', ht⟩ := construct_cases m code t
  · exact .inl ⟨_, hs, ht⟩
  · omega
  · omega
  · exact .inr ⟨_, hs, ht⟩

theorem init_cases_both (n m : Nat) (key iv : List Byte) (pos : Pos) {s t : State} (h : s.ALG = t.ALG) :
    (∃ e, init n key iv pos s = raise e s ∧ init m key iv pos t = raise e t) ∨
    ∃ c k, s.ALG = some c ∧ iv.length = ivBytes c ∧ (c = .hc256 → pos = 0) ∧
      init n key iv pos s = rspWrite [statusCode .ok] (positioned n c k (storeIV iv s.IVB) pos s) ∧
      init m key iv pos t = rspWrite [statusCode .ok] (positioned m c k (storeIV iv t.IVB) pos t) := by
  cases hs : s.ALG with
  | none =>
    exact .inl ⟨_, init_notConstructed n key iv pos hs, init_notConstructed m key iv pos (h.symm.trans hs)⟩
  | some c =>
    have ht : t.ALG = some c := h.symm.trans hs
    by_cases hk : key.length = 32
    · by_cases hv : iv.length = ivBytes c
      · by_cases hp : c = .hc256 → pos = 0
        · exact .inr ⟨c, _, rfl, hv, hp, init_accepted n hs hk hv hp, init_accepted m ht hk hv hp⟩
        · push Not at hp
          obtain ⟨rfl, hne⟩ := hp
          exact .inl ⟨_, init_unsupportedSeek n hs hk hv hne, init_unsupportedSeek m ht hk hv hne⟩
      · exact .inl ⟨_, init_invalidIVLength n pos hs hk hv, init_invalidIVLength m pos ht hk hv⟩
    · exact .inl ⟨_, init_invalidKeyLength n iv pos hs hk, init_invalidKeyLength m iv pos ht hk⟩

theorem seek_cases_both (n m : Nat) (pos : Pos) {s t : State} (h : readyCipher s = readyCipher t) :
    (∃ e, seek n pos s = raise e s ∧ seek m pos t = raise e t) ∨
    ∃ c, readyCipher s = some c ∧ (c = .hc256 → pos = 0) ∧
      seek n pos s = rspWrite [statusCode .ok] (positioned n c s.K s.IVB pos s) ∧
      seek m pos t = rspWrite [statusCode .ok] (positioned m c t.K t.IVB pos t) := by
  cases hs : readyCipher s with
  | none => exact .inl ⟨_, seek_notReady n pos hs, seek_notReady m pos (h.symm.trans hs)⟩
  | some c =>
    have ht : readyCipher t = some c := h.symm.trans hs
    by_cases hp : c = .hc256 → pos = 0
    · exact .inr ⟨c, rfl, hp, seek_accepted n hs hp, seek_accepted m ht hp⟩
    · push Not at hp
      obtain ⟨rfl, hne⟩ := hp
      exact .inl ⟨_, seek_unsupportedSeek n hs hne, seek_unsupportedSeek m ht hne⟩

theorem getpos_both (n m : Nat) {s t : State} (h : readyCipher s = readyCipher t)
    (hview : ∀ c, readyCipher s = some c → positionView n c s = positionView m c t) :
    ∃ out, getpos n s = rspWrite out s ∧ getpos m t = rspWrite out t := by
  cases hs : readyCipher s with
  | none => exact ⟨_, getpos_notReady n hs, getpos_notReady m (h.symm.trans hs)⟩
  | some c => exact ⟨_, getpos_accepted n hs, hview c hs ▸ getpos_accepted m (h.symm.trans hs)⟩

theorem getiv_both {s t : State} (h : readyCipher s = readyCipher t)
    (hiv : ∀ c, readyCipher s = some c → s.IVB.elems.take (ivBytes c) = t.IVB.elems.take (ivBytes c)) :
    ∃ out, getiv s = rspWrite out s ∧ getiv t = rspWrite out t := by
  cases hs : readyCipher s with
  | none => exact ⟨_, getiv_notReady hs, getiv_notReady (h.symm.trans hs)⟩
  | some c => exact ⟨_, getiv_accepted hs, hiv c hs ▸ getiv_accepted (h.symm.trans hs)⟩

theorem readyCipher_congr {s t : State} (halg : s.ALG = t.ALG) (hready : s.READY = t.READY) :
    readyCipher s = readyCipher t := by simp only [readyCipher, halg, hready]

end Sys2Proof.Machine

namespace Sys2Proof.Safety

open Sys2Proof.Machine

/-! ## The engine invariant -/

/-- The invariant is about the engine: the streams, the cursors, `HALTED` and the reset input may change. -/
theorem EngineInv.withControl {n : Nat} {s : State} (h : EngineInv n s) (halted : Bool) (cmd : List Byte) (cc : Nat)
    (rsp : List Byte) (rc : Nat) (reset : Bool) :
    EngineInv n { s with HALTED := halted, cmd := cmd, cc := cc, rsp := rsp, rc := rc, RESET := reset } where
  lanesClear := h.lanesClear
  scratchClear := h.scratchClear
  notReady hr := congrArg (fun u : State =>
    { u with HALTED := halted, cmd := cmd, cc := cc, rsp := rsp, rc := rc, RESET := reset }) (h.notReady hr)
  ready hr := by
    obtain ⟨c, m, halg, hoff, hidx, hb⟩ := h.ready hr
    exact ⟨c, m, halg, hoff, hidx, by cases c <;> exact hb⟩

theorem EngineInv.rspWrite {n : Nat} {s : State} (h : EngineInv n s) (bs : List Byte) : EngineInv n (rspWrite bs s) :=
  h.withControl _ _ _ _ _ _

theorem EngineInv.consume {n : Nat} {s : State} (h : EngineInv n s) (k : Nat) (rest : List Byte) :
    EngineInv n (consume k rest s) := h.withControl _ _ _ _ _ _

theorem EngineInv.illegalCommand {n : Nat} {s : State} (h : EngineInv n s) : EngineInv n (illegalCommand s) :=
  h.withControl _ _ _ _ _ _

/-- What CONSTRUCT leaves is the not-ready engine of the invariant (40_keystream_engine.md R120, R121). -/
theorem engineInv_selectAlg_release (n : Nat) (alg : Option Cipher) (s : State) :
    EngineInv n (selectAlg n alg (release s)) :=
  ⟨⟨rfl, rfl⟩, rfl, fun _ => rfl, fun h => by cases h⟩

theorem engineInv_reset (n : Nat) : EngineInv n State.reset := engineInv_selectAlg_release n none State.reset

/-- INIT and SEEK leave a ready engine that holds the block of its position (10_state.md R38). -/
theorem EngineInv.positioned {n : Nat} {s : State} {c : Cipher} (h : EngineInv n s) (hn : 0 < n) (k : RegFile Word 8)
    (v : RegFile Byte 32) {pos : Pos} (halg : s.ALG = some c) (hp : c = .hc256 → pos = 0) :
    EngineInv n (positioned n c k v pos s) where
  lanesClear := by
    cases c with
    | arx a => exact ⟨rfl, rfl⟩
    | hc256 => exact h.lanesClear
  scratchClear := by
    cases c with
    | arx a => exact h.scratchClear
    | hc256 => rfl
  notReady hr := by simp at hr
  ready _ := by
    obtain ⟨hb, hidx, hoff⟩ := holdsBlock_positioned (n := n) k v s hp
    exact ⟨c, _, by simpa using halg, hoff ▸ Nat.mod_lt _ (blockBytes_pos hn c), hidx, hb⟩

/-- A ready engine that moves past bytes still holds the block it is in (10_state.md R37, R38). -/
theorem EngineInv.iterate_advanceByte {n : Nat} {s : State} {c : Cipher} (h : EngineInv n s) (k : Nat)
    (hready : s.READY = true) (halg : s.ALG = some c) : EngineInv n ((advanceByte n c)^[k] s) where
  lanesClear := iterate_advanceByte_lanesClear n c k h.lanesClear
  scratchClear := by rw [iterate_advanceByte_W, h.scratchClear]
  notReady hr := by simp [hready] at hr
  ready _ := by
    obtain ⟨c', m, halg', hoff, hidx, hb⟩ := h.ready hready
    obtain rfl : c = c' := by simpa [halg] using halg'
    obtain ⟨m', hidx', hb', -⟩ := holdsBlock_iterate_advanceByte k hidx hb
    exact ⟨c, m', by simpa using halg, iterate_advanceByte_offset_lt k hoff, hidx', hb'⟩

/-- Every way a command can end keeps the invariant. -/
theorem EngineInv.of_outcome {n : Nat} {s t : State} {i : Instr} (hn : 0 < n) (h : EngineInv n s)
    (ht : CommandOutcome n s i t) : EngineInv n t := by
  cases ht with
  | failed i e => exact h.rspWrite _
  | constructed code alg => exact (engineInv_selectAlg_release n alg s).rspWrite _
  | initialized key iv pos c k v alg start => exact (h.positioned hn k v alg start).rspWrite _
  | repositioned pos c ready alg start => exact (h.positioned hn s.K s.IVB alg start).rspWrite _
  | applied data c ready alg => exact (h.iterate_advanceByte data.length ready alg).rspWrite _
  | reported i out => exact h.rspWrite _

theorem EngineInv.command {n : Nat} {s : State} (hn : 0 < n) (h : EngineInv n s) (i : Instr) :
    EngineInv n (command n i s) := h.of_outcome hn (command_outcome n i s)

/-! ## Engines a host cannot tell apart -/

variable {n m : Nat} {s t : State}

/-- Engines of one algorithm that are not ready are alike (10_state.md R39). -/
theorem Alike.of_notReady (hs : s.READY = false) (ht : t.READY = false) (halg : s.ALG = t.ALG) : Alike n m s t :=
  ⟨halg, hs.trans ht.symm, fun hr => by simp [hs] at hr⟩

theorem Alike.readyCipher_eq (h : Alike n m s t) : readyCipher s = readyCipher t := readyCipher_congr h.alg h.ready

/-- What alike engines that are ready have in common, for the algorithm of the first. -/
theorem Alike.engine_of_readyCipher (h : Alike n m s t) {c : Cipher} (hc : readyCipher s = some c) :
    ∃ a b, s.K = t.K ∧ (∀ i : Fin 32, i.val < ivBytes c → s.IVB.read i = t.IVB.read i) ∧
      (s.BLOCKOFFSET < blockBytes n c ∧ s.BLOCKINDEX = BitVec.ofNat 64 a ∧ holdsBlock n c s a) ∧
      (t.BLOCKOFFSET < blockBytes m c ∧ t.BLOCKINDEX = BitVec.ofNat 64 b ∧ holdsBlock m c t b) ∧
      a * blockBytes n c + s.BLOCKOFFSET = b * blockBytes m c + t.BLOCKOFFSET := by
  obtain ⟨hready, halg⟩ := readyCipher_eq_some.mp hc
  obtain ⟨c', a, b, halg', hrest⟩ := h.engine hready
  obtain rfl : c = c' := by simpa [halg] using halg'
  exact ⟨a, b, hrest⟩

/-- The streams are no part of the relation. -/
theorem Alike.rspWrite (h : Alike n m s t) (outs outt : List Byte) :
    Alike n m (rspWrite outs s) (rspWrite outt t) where
  alg := h.alg
  ready := h.ready
  engine hr := by
    obtain ⟨c, a, b, halg, hk, hv, ⟨hoff, hidx, hb⟩, ⟨hoff', hidx', hb'⟩, heq⟩ := h.engine hr
    exact ⟨c, a, b, halg, hk, hv, ⟨hoff, hidx, by cases c <;> exact hb⟩, ⟨hoff', hidx', by cases c <;> exact hb'⟩, heq⟩

/-- Engines positioned on one key, one IV and one position are alike, whatever they were. -/
theorem alike_positioned (hn : 0 < n) (hm : 0 < m) {c : Cipher} (k : RegFile Word 8) {v w : RegFile Byte 32} {pos : Pos}
    (hs : s.ALG = some c) (ht : t.ALG = some c) (hp : c = .hc256 → pos = 0)
    (hv : ∀ i : Fin 32, i.val < ivBytes c → v.read i = w.read i) :
    Alike n m (positioned n c k v pos s) (positioned m c k w pos t) := by
  obtain ⟨hb, hidx, hoff⟩ := holdsBlock_positioned (n := n) k v s hp
  obtain ⟨hb', hidx', hoff'⟩ := holdsBlock_positioned (n := m) k w t hp
  refine ⟨by simp [hs, ht], by simp, fun _ => ⟨c, _, _, by simpa using hs, by simp, by simpa using hv,
    ⟨?_, hidx, hb⟩, ⟨?_, hidx', hb'⟩, ?_⟩⟩
  · exact hoff ▸ Nat.mod_lt _ (blockBytes_pos hn c)
  · exact hoff' ▸ Nat.mod_lt _ (blockBytes_pos hm c)
  · rw [hoff, hoff', Nat.div_add_mod', Nat.div_add_mod']

/-- Alike engines are alike after the same number of bytes. -/
theorem Alike.iterate_advanceByte (h : Alike n m s t) {c : Cipher} (hc : readyCipher s = some c) (k : Nat) :
    Alike n m ((advanceByte n c)^[k] s) ((advanceByte m c)^[k] t) := by
  obtain ⟨a, b, hk, hv, ⟨hoff, hidx, hb⟩, ⟨hoff', hidx', hb'⟩, heq⟩ := h.engine_of_readyCipher hc
  obtain ⟨a', hia, hba, hea⟩ := holdsBlock_iterate_advanceByte k hidx hb
  obtain ⟨b', hib, hbb, heb⟩ := holdsBlock_iterate_advanceByte k hidx' hb'
  refine ⟨by simp [h.alg], by simp [h.ready], fun _ => ⟨c, a', b', ?_, ?_, ?_, ⟨iterate_advanceByte_offset_lt k hoff, hia, hba⟩,
    ⟨iterate_advanceByte_offset_lt k hoff', hib, hbb⟩, by rw [hea, heb, heq]⟩⟩
  · simpa using (readyCipher_eq_some.mp hc).2
  · simpa only [iterate_advanceByte_K] using hk
  · simpa only [iterate_advanceByte_IVB] using hv

/-- Alike engines use the same keystream bytes (40_keystream_engine.md R129, R131). -/
theorem Alike.outputBytes_eq (h : Alike n m s t) {c : Cipher} (hc : readyCipher s = some c) (data : List Byte) :
    outputBytes n c data s = outputBytes m c data t := by
  obtain ⟨a, b, hk, hv, ⟨hoff, hidx, hb⟩, ⟨hoff', hidx', hb'⟩, heq⟩ := h.engine_of_readyCipher hc
  simp only [outputBytes_eq_keystream data hidx hb hoff, outputBytes_eq_keystream data hidx' hb' hoff', hk, heq,
    keystreamByte_congr c t.K _ hv]

theorem Alike.positionView_eq (h : Alike n m s t) {c : Cipher} (hc : readyCipher s = some c) :
    positionView n c s = positionView m c t := by
  obtain ⟨a, b, -, -, ⟨-, hidx, -⟩, ⟨-, hidx', -⟩, heq⟩ := h.engine_of_readyCipher hc
  rw [Machine.positionView_eq hidx, Machine.positionView_eq hidx', heq]

/-- What GETIV reports of the IV. -/
theorem Alike.ivTaken_eq (h : Alike n m s t) {c : Cipher} (hc : readyCipher s = some c) :
    s.IVB.elems.take (ivBytes c) = t.IVB.elems.take (ivBytes c) := by
  obtain ⟨-, -, -, hv, -⟩ := h.engine_of_readyCipher hc
  exact RegFile.take_elems_congr hv

/-- The same bytes appended to both response streams, and the states alike. -/
def AnswerAlike (n m : Nat) (s t s' t' : State) : Prop :=
  ∃ out, s'.rsp = s.rsp ++ out ∧ t'.rsp = t.rsp ++ out ∧ Alike n m s' t'

theorem Alike.answer {s' t' : State} (h : Alike n m s' t') (hs : s'.rsp = s.rsp) (ht : t'.rsp = t.rsp) (out : List Byte) :
    AnswerAlike n m s t (Machine.rspWrite out s') (Machine.rspWrite out t') :=
  ⟨out, by rw [rspWrite_rsp, hs], by rw [rspWrite_rsp, ht], h.rspWrite out out⟩

theorem Alike.raise (h : Alike n m s t) (e : Status) : AnswerAlike n m s t (raise e s) (raise e t) :=
  h.answer rfl rfl _

/-- Both cores accept CONSTRUCT, and are then not ready; or both refuse it. -/
theorem Alike.construct (h : Alike n m s t) (code : Byte) : AnswerAlike n m s t (construct n code s) (construct m code t) := by
  obtain ⟨e, hs, ht⟩ | ⟨alg, hs, ht⟩ := construct_cases_both n m code s t <;> rw [hs, ht]
  · exact h.raise e
  · have hnotReady : Alike n m (selectAlg n alg (release s)) (selectAlg m alg (release t)) := .of_notReady rfl rfl rfl
    exact hnotReady.answer rfl rfl _

theorem Alike.init (hn : 0 < n) (hm : 0 < m) (h : Alike n m s t) (key iv : List Byte) (pos : Pos) :
    AnswerAlike n m s t (init n key iv pos s) (init m key iv pos t) := by
  obtain ⟨e, hs, ht⟩ | ⟨c, k, halg, hlen, hp, hs, ht⟩ := init_cases_both n m key iv pos h.alg <;> rw [hs, ht]
  · exact h.raise e
  · have hv : ∀ i : Fin 32, i.val < ivBytes c → (storeIV iv s.IVB).read i = (storeIV iv t.IVB).read i := by
      intro i hi
      rw [storeIV_read_given _ i (hlen ▸ hi), storeIV_read_given _ i (hlen ▸ hi)]
    exact (alike_positioned hn hm k halg (h.alg ▸ halg) hp hv).answer (by simp) (by simp) _

theorem Alike.seek (hn : 0 < n) (hm : 0 < m) (h : Alike n m s t) (pos : Pos) :
    AnswerAlike n m s t (seek n pos s) (seek m pos t) := by
  obtain ⟨e, hs, ht⟩ | ⟨c, hc, hp, hs, ht⟩ := seek_cases_both n m pos h.readyCipher_eq <;> rw [hs, ht]
  · exact h.raise e
  · obtain ⟨-, -, hk, hv, -⟩ := h.engine_of_readyCipher hc
    obtain ⟨-, halg⟩ := readyCipher_eq_some.mp hc
    rw [hk]
    exact (alike_positioned hn hm t.K halg (h.alg ▸ halg) hp hv).answer (by simp) (by simp) _

theorem Alike.apply (h : Alike n m s t) (data : List Byte) : AnswerAlike n m s t (apply n data s) (apply m data t) := by
  cases hc : readyCipher s with
  | none =>
    rw [apply_notReady n data hc, apply_notReady m data (h.readyCipher_eq ▸ hc)]
    exact h.raise _
  | some c =>
    rw [apply_accepted n data hc, apply_accepted m data (h.readyCipher_eq ▸ hc), h.outputBytes_eq hc data]
    exact (h.iterate_advanceByte hc data.length).answer (by simp) (by simp) _

theorem Alike.getpos (h : Alike n m s t) : AnswerAlike n m s t (getpos n s) (getpos m t) := by
  obtain ⟨out, hs, ht⟩ := getpos_both n m h.readyCipher_eq fun _ hc => h.positionView_eq hc
  rw [hs, ht]
  exact h.answer rfl rfl out

theorem Alike.getiv (h : Alike n m s t) : AnswerAlike n m s t (getiv s) (getiv t) := by
  obtain ⟨out, hs, ht⟩ := getiv_both h.readyCipher_eq fun _ hc => h.ivTaken_eq hc
  rw [hs, ht]
  exact h.answer rfl rfl out

/-- Every command keeps the relation and answers alike. -/
theorem Alike.command (hn : 0 < n) (hm : 0 < m) (h : Alike n m s t) (i : Instr) :
    AnswerAlike n m s t (command n i s) (command m i t) := by
  cases i with
  | construct code => exact h.construct code
  | init key iv pos => exact h.init hn hm key iv pos
  | seek pos => exact h.seek hn hm pos
  | apply data => exact h.apply data
  | getpos => exact h.getpos
  | getiv => exact h.getiv

theorem Alike.runCommands (hn : 0 < n) (hm : 0 < m) (h : Alike n m s t) (is : List Instr) :
    AnswerAlike n m s t (runCommands n is s) (runCommands m is t) := by
  induction is generalizing s t with
  | nil => exact ⟨[], by simp, by simp, h⟩
  | cons i is ih =>
    obtain ⟨first, hs, ht, h'⟩ := h.command hn hm i
    obtain ⟨rest, hs', ht', h''⟩ := ih h'
    exact ⟨first ++ rest, by simp [hs', hs], by simp [ht', ht], h''⟩

end Sys2Proof.Safety

namespace Sys2Proof.Proofs

open Sys2Proof.Machine
open Sys2Proof.Safety

/-- Settles O44: a step takes a reset, runs a command on the state with its bytes consumed, or halts on an illegal opcode, and
each keeps the invariant. -/
theorem stepKeepsTheEngineInvariant : Obligations.StepKeepsTheEngineInvariant := by
  intro s t h hstep
  obtain ⟨-, rfl⟩ | ⟨-, -, i, rest, -, rfl⟩ | ⟨-, -, b, rest, -, rfl⟩ := step_cases hstep
  · exact engineInv_reset _
  · exact (h.consume _ _).command hcBlockWords_pos i
  · exact (h.consume _ _).illegalCommand

/-- Settles O56: command by command, since alike engines accept the same commands and use the same keystream bytes. -/
theorem commandsKeepEnginesAlike : Obligations.CommandsKeepEnginesAlike := by
  intro n m i s t hn hm h
  exact h.command hn hm i

/-- Settles O43: reset leaves the engine CONSTRUCT leaves for `NONE`. -/
theorem resetMeetsTheEngineInvariant : Obligations.ResetMeetsTheEngineInvariant := engineInv_reset _

/-- Settles O45: the host touches the streams and the reset input alone. -/
theorem hostKeepsTheEngineInvariant : Obligations.HostKeepsTheEngineInvariant := by
  intro s h
  exact ⟨fun bs => h.withControl _ _ _ _ _ _, fun k => h.withControl _ _ _ _ _ _, h.withControl _ _ _ _ _ _⟩

/-- Settles O25: by the ways a command can end. -/
theorem registersHaveOnlyTheirWriters : Obligations.RegistersHaveOnlyTheirWriters := by
  intro i s t h
  have houtcome := exec_outcome h
  rw [exec_eq_command, Host.Outcome.next.injEq] at h
  obtain ⟨hcmd, hcc, hhalted, hreset⟩ := h ▸ command_frame Config.hcBlockWords i s
  refine ⟨hhalted, hcmd, hcc, hreset, ?_⟩
  cases houtcome with
  | failed i e => simp [raise]
  | constructed code alg => simp
  | initialized key iv pos c k v alg start =>
    refine ⟨by simp, fun hno => absurd rfl (hno key iv pos), fun _ hno => absurd rfl (hno key iv pos), fun _ hne => ?_⟩
    exact positioned_tables k v pos s (by simpa [alg] using hne)
  | repositioned pos c ready alg start =>
    refine ⟨by simp, by simp [ready], by simp, fun _ hne => ?_⟩
    exact positioned_tables s.K s.IVB pos s (by simpa [alg] using hne)
  | applied data c ready alg =>
    refine ⟨by simp, by simp [ready], by simp [iterate_advanceByte_K, iterate_advanceByte_IVB], fun _ hne => ?_⟩
    exact ⟨iterate_advanceByte_tab _ _ s (by simpa [alg] using hne), iterate_advanceByte_W _ c _ s⟩
  | reported i out => simp

/-- Settles O10: reset fills every register file and memory with zero. -/
theorem resetValuesAreZero : Obligations.ResetValuesAreZero :=
  ⟨rfl, rfl, rfl, rfl, rfl, rfl, RegFile.read_fill 0, RegFile.read_fill 0, fun _ => List.eq_of_mem_replicate,
    RegFile.read_fill 0, RegFile.read_fill 0, RegFile.read_fill 0, RegFile.read_fill 0, RegFile.read_fill 0,
    rfl, rfl, rfl, rfl⟩

/-- Settles O13: a step that takes no reset consumes a command's encoding and answers it, or consumes an illegal opcode byte and
answers `0xff`. -/
theorem cursorsCountTheStreams : Obligations.CursorsCountTheStreams := by
  intro s t hR hstep
  obtain ⟨hR', -⟩ | ⟨-, -, i, rest, hd, rfl⟩ | ⟨-, -, b, rest, hd, rfl⟩ := step_cases hstep
  · simp [hR] at hR'
  · obtain ⟨-, hbytes⟩ := decode_command hd
    obtain ⟨hcmd, hcc, -, -⟩ := command_frame Config.hcBlockWords i (consume (commandLength i) rest s)
    refine ⟨⟨encode i, encode_ne_nil i, by rw [hcmd]; exact hbytes, ?_⟩, command_response _ i _⟩
    rw [hcc, encode_length]
    rfl
  · obtain ⟨hbytes, -⟩ := decode_eq_illegal.mp hd
    exact ⟨⟨[b], List.cons_ne_nil _ _, hbytes, rfl⟩, [statusCode .illegalCommand], List.cons_ne_nil _ _, rfl, rfl⟩

/-- Settles O24: the block of a position and the offset in it make up the position, and each byte moves it on by one. -/
theorem positionCountsBytes : Obligations.PositionCountsBytes := by
  refine ⟨fun c key iv pos s halg hk hv hp => ?_, fun c pos s hready halg hp => ?_, fun c data s hready halg hoff => ?_⟩ <;>
    refine ⟨_, exec_eq_command _ s, ?_⟩
  · rw [command, init_accepted _ halg hk hv hp, positionView_rspWrite, positionView_positioned _ _ _ hp]
  · rw [command, seek_accepted _ (readyCipher_eq_some.mpr ⟨hready, halg⟩) hp, positionView_rspWrite,
      positionView_positioned _ _ _ hp]
  · rw [command, apply_accepted _ data (readyCipher_eq_some.mpr ⟨hready, halg⟩), positionView_rspWrite,
      positionView_iterate_advanceByte]
    exact ⟨iterate_advanceByte_offset_lt _ hoff, rfl⟩

/-- Settles O26: the checks read `ALG` and `READY`, and what a command but APPLY reports is the position or the IV. -/
theorem onlyApplyShowsSecrets : Obligations.OnlyApplyShowsSecrets := by
  intro i s t hno halg hready hidx hoff hiv
  have hcipher := readyCipher_congr halg hready
  suffices h : ∃ out, (command Config.hcBlockWords i s).rsp = s.rsp ++ out ∧
      (command Config.hcBlockWords i t).rsp = t.rsp ++ out by
    obtain ⟨out, hs, ht⟩ := h
    exact ⟨out, _, _, exec_eq_command i s, exec_eq_command i t, hs, ht⟩
  cases i with
  | construct code =>
    obtain ⟨e, hs, ht⟩ | ⟨alg, hs, ht⟩ := construct_cases_both Config.hcBlockWords Config.hcBlockWords code s t <;>
      exact ⟨_, congrArg State.rsp hs, congrArg State.rsp ht⟩
  | init key iv pos =>
    obtain ⟨e, hs, ht⟩ | ⟨c, k, -, -, -, hs, ht⟩ := init_cases_both Config.hcBlockWords Config.hcBlockWords key iv pos halg
    · exact ⟨_, congrArg State.rsp hs, congrArg State.rsp ht⟩
    · exact ⟨[statusCode .ok], by simp [command, hs], by simp [command, ht]⟩
  | seek pos =>
    obtain ⟨e, hs, ht⟩ | ⟨c, -, -, hs, ht⟩ := seek_cases_both Config.hcBlockWords Config.hcBlockWords pos hcipher
    · exact ⟨_, congrArg State.rsp hs, congrArg State.rsp ht⟩
    · exact ⟨[statusCode .ok], by simp [command, hs], by simp [command, ht]⟩
  | apply data => exact absurd rfl (hno data)
  | getpos =>
    obtain ⟨out, hs, ht⟩ := getpos_both Config.hcBlockWords Config.hcBlockWords hcipher fun c _ => by
      simp only [positionView, hidx, hoff]
    exact ⟨out, congrArg State.rsp hs, congrArg State.rsp ht⟩
  | getiv =>
    obtain ⟨out, hs, ht⟩ := getiv_both hcipher fun c _ => by rw [hiv]
    exact ⟨out, congrArg State.rsp hs, congrArg State.rsp ht⟩

/-- Settles O52: engines of one algorithm that are not ready are alike, whatever they hold. -/
theorem unwrittenStateIsNeverObserved : Obligations.UnwrittenStateIsNeverObserved := by
  intro is s t hs ht halg
  obtain ⟨out, hs', ht', -⟩ := (Alike.of_notReady (n := Config.hcBlockWords) (m := Config.hcBlockWords) hs ht halg).runCommands
    hcBlockWords_pos hcBlockWords_pos is
  exact ⟨out, hs', ht'⟩

end Sys2Proof.Proofs
end

section
/-!
PROOFS of the statements about 20_memory.md. First the rules they share: a command decodes whatever follows its bytes, a step
commutes with what the host does to the streams, APPLY's output over its input is the keystream, and what a word memory holds
after any list of writes.
-/

namespace Sys2Proof

open Sys2Proof.Machine

/-! ## Bytes after a command -/

/-- A well-formed command decodes from its encoding, whatever bytes follow (30_encoding.md R91 to R98). -/
theorem decode_encode_append {i : Instr} (h : i.wellFormed = true) (rest : List Byte) :
    decode (encode i ++ rest) = .command i rest := by
  cases i with
  | construct alg => exact decode_eq_command.mpr ⟨.construct, _, rfl, parseConstruct_eq_some.mpr ⟨alg, rfl, rfl⟩⟩
  | init key iv pos =>
    obtain ⟨hk, hv⟩ : key.length < 2 ^ 8 ∧ iv.length < 2 ^ 8 := by simpa [Instr.wellFormed] using h
    exact decode_eq_command.mpr ⟨.init, _, rfl, parseInit_eq_some.mpr ⟨key, iv, pos, rfl, hk, hv, by simp⟩⟩
  | seek pos => exact decode_eq_command.mpr ⟨.seek, _, rfl, parseSeek_eq_some.mpr ⟨pos, rfl, rfl⟩⟩
  | apply data =>
    have hlen : data.length < 2 ^ 32 := by simpa [Instr.wellFormed] using h
    exact decode_eq_command.mpr ⟨.apply, _, rfl, parseApply_eq_some.mpr ⟨data, rfl, hlen, by simp⟩⟩
  | getpos => exact decode_eq_command.mpr ⟨.getpos, _, rfl, rfl⟩
  | getiv => exact decode_eq_command.mpr ⟨.getiv, _, rfl, rfl⟩

/-- Bytes that arrive after a whole command leave it the command at the head of the stream (30_encoding.md R91). -/
theorem decode_append_of_command {bs rest : List Byte} {i : Instr} (h : decode bs = .command i rest) (more : List Byte) :
    decode (bs ++ more) = .command i (rest ++ more) := by
  obtain ⟨hwf, rfl⟩ := decode_command h
  rw [List.append_assoc, decode_encode_append hwf]

/-- Bytes that arrive after a byte that selects no command leave it at the head of the stream (30_encoding.md R104). -/
theorem decode_append_of_illegal {bs rest : List Byte} {b : Byte} (h : decode bs = .illegal b rest) (more : List Byte) :
    decode (bs ++ more) = .illegal b (rest ++ more) := by
  obtain ⟨rfl, hop⟩ := decode_eq_illegal.mp h
  exact decode_eq_illegal.mpr ⟨rfl, hop⟩

end Sys2Proof

namespace Sys2Proof.Machine

open Sys2Proof.Safety

/-! ## What the host does between steps (log 2) -/

theorem command_hostSend (n : Nat) (i : Instr) (more : List Byte) (s : State) :
    command n i (hostSend more s) = hostSend more (command n i s) := by
  obtain ⟨out, -, h⟩ := command_withStreams n i s
  exact (h (s.cmd ++ more) s.cc s.rsp s.rc).trans (congrArg (hostSend more) (h s.cmd s.cc s.rsp s.rc).symm)

/-- Removing bytes that already stand in the response stream, and appending to it, commute. -/
theorem hostReceive_rspWrite {k : Nat} {s : State} (hk : k ≤ s.rsp.length) (bs : List Byte) :
    (hostReceive k (rspWrite bs s)).2 = rspWrite bs (hostReceive k s).2 := by
  simp [hostReceive, rspWrite, List.drop_append_of_le_length hk]

theorem command_hostReceive (n : Nat) (i : Instr) {k : Nat} {s : State} (hk : k ≤ s.rsp.length) :
    command n i (hostReceive k s).2 = (hostReceive k (command n i s)).2 := by
  obtain ⟨out, -, h⟩ := command_withStreams n i s
  calc command n i (hostReceive k s).2
      = withStreams s.cmd s.cc (s.rsp.drop k ++ out) (s.rc + out.length) (command n i s) := h _ _ _ _
    _ = (hostReceive k (withStreams s.cmd s.cc (s.rsp ++ out) (s.rc + out.length) (command n i s))).2 := by
        rw [← List.drop_append_of_le_length hk]
        rfl
    _ = (hostReceive k (command n i s)).2 := by rw [← h s.cmd s.cc s.rsp s.rc]; rfl

theorem illegalCommand_hostReceive {k : Nat} {s : State} (hk : k ≤ s.rsp.length) :
    illegalCommand (hostReceive k s).2 = (hostReceive k (illegalCommand s)).2 :=
  congrArg (fun u : State => { u with HALTED := true }) (hostReceive_rspWrite hk _).symm

/-- Command bytes that arrive after what a step reads change nothing about it (20_memory.md R68 d). -/
theorem step_hostSend {s t : State} (hR : s.RESET = false) (h : step s = .next t) (more : List Byte) :
    step (hostSend more s) = .next (hostSend more t) := by
  obtain ⟨hR', -⟩ | ⟨-, hH, i, rest, hd, rfl⟩ | ⟨-, hH, b, rest, hd, rfl⟩ := step_cases h
  · simp [hR] at hR'
  · rw [step_command (s := hostSend more s) hR hH (decode_append_of_command hd more), ← command_hostSend]
    rfl
  · rw [step_illegal (s := hostSend more s) hR hH (decode_append_of_illegal hd more)]
    rfl

/-- Response bytes the host has removed change nothing about a step (20_memory.md R68 d). -/
theorem step_hostReceive {s t : State} (hR : s.RESET = false) (h : step s = .next t) {k : Nat} (hk : k ≤ s.rsp.length) :
    step (hostReceive k s).2 = .next (hostReceive k t).2 := by
  obtain ⟨hR', -⟩ | ⟨-, hH, i, rest, hd, rfl⟩ | ⟨-, hH, b, rest, hd, rfl⟩ := step_cases h
  · simp [hR] at hR'
  · rw [step_command (s := (hostReceive k s).2) hR hH hd, ← command_hostReceive _ _ (s := consume _ rest s) hk]
    rfl
  · rw [step_illegal (s := (hostReceive k s).2) hR hH hd, ← illegalCommand_hostReceive (s := consume 1 rest s) hk]
    rfl

/-! ## APPLY byte by byte -/

/-- An APPLY on a ready engine answers `00` and its output bytes, and advances the engine past as many bytes (R123). -/
theorem exec_apply_accepted {s : State} {c : Cipher} (hready : s.READY = true) (halg : s.ALG = some c) (data : List Byte) :
    exec (.apply data) s = .next (rspWrite (statusCode .ok :: outputBytes Config.hcBlockWords c data s)
      ((advanceByte Config.hcBlockWords c)^[data.length] s)) := by
  rw [exec_eq_command, command, apply_accepted _ data (readyCipher_eq_some.mpr ⟨hready, halg⟩)]

/-- Output XOR input is the keystream bytes the engine goes through, which the input does not reach (20_memory.md R68 c). -/
theorem zipWith_xor_outputBytes (n : Nat) (c : Cipher) (data : List Byte) (s : State) :
    List.zipWith (· ^^^ ·) (outputBytes n c data s) data =
      (List.range data.length).map fun i => nextByte ((advanceByte n c)^[i] s) := by
  induction data generalizing s with
  | nil => rfl
  | cons b data ih =>
    have hxor : b ^^^ nextByte s ^^^ b = nextByte s := by
      rw [BitVec.xor_comm b, BitVec.xor_assoc, BitVec.xor_self, BitVec.xor_zero]
    simp only [outputBytes, List.zipWith_cons_cons, hxor, ih, List.length_cons, List.range_succ_eq_map, List.map_cons,
      List.map_map, Function.comp_def, Function.iterate_zero_apply, Function.iterate_succ_apply]

/-! ## Word memories -/

/-- After a list of writes an element reads as the value of the last write to its index, or as what the memory held before them
(20_memory.md R62). -/
theorem RegFile.read_foldl_write {α : Type} {n : Nat} (f : RegFile α n) (writes : List (Fin n × α)) (i : Fin n) :
    (writes.foldl (fun m w => m.write w.1 w.2) f).read i =
      ((writes.reverse.find? fun w => w.1 = i).map fun w => w.2).getD (f.read i) := by
  induction writes using List.reverseRecOn with
  | nil => rfl
  | append_singleton writes w ih =>
    rw [List.foldl_append, List.foldl_cons, List.foldl_nil, RegFile.read_write, List.reverse_append, List.reverse_singleton,
      List.singleton_append, List.find?_cons]
    by_cases h : w.1 = i
    · simp [h]
    · simp [h, ih]

/-- CONSTRUCT with a code of an algorithm leaves the tables and the scratch memory zero (40_keystream_engine.md R120, R121). -/
theorem construct_memories {alg : Byte} (h : alg.toNat ≤ 3) (n : Nat) (s : State) :
    (construct n alg s).tab = State.reset.tab ∧ (construct n alg s).W = State.reset.W := by
  obtain ⟨hlt, -⟩ | ⟨-, heq⟩ := construct_cases n alg s
  · omega
  · rw [heq]
    exact ⟨rfl, rfl⟩

end Sys2Proof.Machine

namespace Sys2Proof.Proofs

open Sys2Proof.Machine
open Sys2Proof.Safety

/-- Settles O12: what a step reads of the streams is one command at the head, and it appends to the response stream alone. -/
theorem stepIgnoresWhenTheHostActs : Obligations.StepIgnoresWhenTheHostActs := by
  intro s t hR hstep
  refine ⟨step_hostSend hR hstep, fun k hk => ⟨step_hostReceive hR hstep hk, ?_⟩⟩
  obtain ⟨-, produced, -, hrsp, -⟩ := cursorsCountTheStreams s t hR hstep
  rw [hostReceive, hostReceive, hrsp, List.take_append_of_le_length hk]

/-- Settles O27: APPLY advances the engine by the number of bytes, and its output over its input is the keystream of as many
bytes. -/
theorem applyTreatsBytesSeparately : Obligations.ApplyTreatsBytesSeparately := by
  intro s d e hready halg hlen
  obtain ⟨c, hc⟩ := Option.ne_none_iff_exists'.mp halg
  have hrsp (data out : List Byte) := congrArg (· ++ 0x00 :: out) (iterate_advanceByte_rsp Config.hcBlockWords c data.length s)
  refine ⟨_, _, outputBytes Config.hcBlockWords c d s, outputBytes Config.hcBlockWords c e s,
    exec_apply_accepted hready hc d, exec_apply_accepted hready hc e, hrsp d _, hrsp e _, outputBytes_length _ c d s, ?_, ?_⟩
  · simp only [rspWrite, List.length_cons, outputBytes_length, hlen]
  · rw [zipWith_xor_outputBytes, zipWith_xor_outputBytes, hlen]

/-- Settles O35: by induction over the writes; reset and CONSTRUCT fill the memories with zero. -/
theorem memoryHoldsWhatWasWritten : Obligations.MemoryHoldsWhatWasWritten := by
  refine ⟨fun n writes i => ?_, fun n m i j v h => RegFile.read_write_other m v h, ⟨rfl, rfl, rfl⟩, fun alg s h => ?_⟩
  · rw [RegFile.read_foldl_write, RegFile.read_fill]
  · obtain ⟨htab, hW⟩ := construct_memories h Config.hcBlockWords s
    exact ⟨_, rfl, congrArg TableState.P htab, congrArg TableState.Q htab, hW⟩

end Sys2Proof.Proofs
end

section
/-!
PROOFS of the statements about 30_encoding.md. First the rules they share: the length of a frame, the steps that begin with a
decoded command, the shape of a response, an APPLY in parts, and the commands of an assembly line.
-/

namespace Sys2Proof

open Sys2Proof.Machine

/-! ## The length of a frame -/

/-- The length of an INIT stands in its two length fields, and is known once both have arrived (30_encoding.md R94, R102). -/
theorem frameLength_init {tail : List Byte} {L : Nat} :
    frameLength (opcodeByte .init :: tail) = some L ↔ ∃ klen key ivlen t, tail = klen :: (key ++ ivlen :: t) ∧
      key.length = klen.toNat ∧ L = 3 + klen.toNat + ivlen.toNat + 8 := by
  have hframe : frameLength (opcodeByte .init :: tail) = (takeByte tail).bind fun klen =>
      (klen.2[klen.1.toNat]?).map fun ivlen => 3 + klen.1.toNat + ivlen.toNat + 8 := rfl
  simp only [hframe, Option.bind_eq_some_iff, Option.map_eq_some_iff, Prod.exists, takeByte_eq_some]
  constructor
  · rintro ⟨klen, u, rfl, ivlen, hget, rfl⟩
    obtain ⟨hlt, rfl⟩ := List.getElem?_eq_some_iff.mp hget
    exact ⟨klen, u.take klen.toNat, _, u.drop (klen.toNat + 1), by simp, List.length_take_of_le hlt.le, rfl⟩
  · rintro ⟨klen, key, ivlen, t, rfl, hkey, rfl⟩
    exact ⟨klen, _, rfl, ivlen, by simp [← hkey], rfl⟩

/-- The length of an APPLY stands in its length field, and is known once that has arrived (30_encoding.md R96, R102). -/
theorem frameLength_apply {tail : List Byte} {L : Nat} :
    frameLength (opcodeByte .apply :: tail) = some L ↔
      ∃ len t, tail = len ++ t ∧ len.length = 4 ∧ L = 5 + leValue len := by
  have hframe : frameLength (opcodeByte .apply :: tail) = (takeBytes 4 tail).map fun len => 5 + leValue len.1 := rfl
  simp only [hframe, Option.map_eq_some_iff, Prod.exists, takeBytes_eq_some, and_assoc, eq_comm (b := L)]

/-- The length fields of an encoding count its bytes, whatever follows them (30_encoding.md R92). -/
theorem frameLength_encode_append {i : Instr} (h : i.wellFormed = true) (rest : List Byte) :
    frameLength (encode i ++ rest) = some (commandLength i) := by
  cases i with
  | construct alg => rfl
  | init key iv pos =>
    obtain ⟨hk, hv⟩ : key.length < 2 ^ 8 ∧ iv.length < 2 ^ 8 := by simpa [Instr.wellFormed] using h
    refine frameLength_init.mpr
      ⟨BitVec.ofNat 8 key.length, key, BitVec.ofNat 8 iv.length, iv ++ (leBytes 8 pos.toNat ++ rest), by simp, ?_⟩
    simp only [BitVec.toNat_ofNat, Nat.mod_eq_of_lt hk, Nat.mod_eq_of_lt hv, commandLength, and_self]
  | seek pos => rfl
  | apply data =>
    have hlen : data.length < 2 ^ (8 * 4) := by simpa [Instr.wellFormed] using h
    refine frameLength_apply.mpr ⟨_, data ++ rest, List.append_assoc .., leBytes_length 4 _, ?_⟩
    rw [leValue_leBytes, Nat.mod_eq_of_lt hlen, commandLength]
  | getpos => rfl
  | getiv => rfl

/-- A decoded command is as long as its frame, and those bytes are what is consumed (30_encoding.md R91). -/
theorem frameLength_of_command {bs rest : List Byte} {i : Instr} (h : decode bs = .command i rest) :
    frameLength bs = some (commandLength i) ∧ bs.length = commandLength i + rest.length := by
  obtain ⟨hwf, rfl⟩ := decode_command h
  exact ⟨frameLength_encode_append hwf rest, by rw [List.length_append, encode_length]⟩

theorem frameLength_of_illegal {bs rest : List Byte} {b : Byte} (h : decode bs = .illegal b rest) :
    frameLength bs = some 1 ∧ bs.length = 1 + rest.length := by
  obtain ⟨rfl, hop⟩ := decode_eq_illegal.mp h
  exact ⟨by simp [frameLength, hop], Nat.add_comm ..⟩

/-- A parser that finds too few bytes has found fewer than the frame has (30_encoding.md R102). -/
theorem length_lt_frameLength_of_parse_none {op : Opcode} {tail : List Byte} {L : Nat} (h : parseOperands op tail = none)
    (hL : frameLength (opcodeByte op :: tail) = some L) : tail.length + 1 < L := by
  cases op with
  | construct =>
    obtain rfl : 2 = L := Option.some.inj hL
    obtain rfl : tail = [] := takeByte_eq_none.mp (Option.map_eq_none_iff.mp h)
    decide
  | init =>
    obtain ⟨klen, key, ivlen, t, rfl, hkey, rfl⟩ := frameLength_init.mp hL
    have hrest : (takeBytes ivlen.toNat t).bind (fun iv => (takePos iv.2).map fun pos =>
        (Instr.init key iv.1 pos.1, pos.2)) = none := by
      have htake := takeBytes_append key (ivlen :: t)
      simpa [parseOperands, parseInit, takeByte, ← hkey, htake] using h
    have ht : t.length < ivlen.toNat + 8 := by
      cases hiv : takeBytes ivlen.toNat t with
      | none => exact Nat.lt_add_right 8 (takeBytes_eq_none.mp hiv)
      | some r =>
        obtain ⟨rfl, hlen⟩ := takeBytes_eq_some.mp hiv
        have hpos : r.2.length < 8 := takePos_eq_none.mp (by simpa [hiv] using hrest)
        simp only [List.length_append]
        omega
    simp only [List.length_cons, List.length_append]
    omega
  | seek =>
    obtain rfl : 9 = L := Option.some.inj hL
    have hpos : tail.length < 8 := takePos_eq_none.mp (Option.map_eq_none_iff.mp h)
    omega
  | apply =>
    obtain ⟨len, t, rfl, hlen, rfl⟩ := frameLength_apply.mp hL
    have htake := takeBytes_append len t
    have ht : t.length < leValue len := by
      simpa [parseOperands, parseApply, ← hlen, htake, takeBytes_eq_none] using h
    simp only [List.length_append]
    omega
  | getpos => cases h
  | getiv => cases h

/-- A command waits exactly while fewer bytes than its frame's have arrived, or a length field has not (30_encoding.md R102). -/
theorem decode_eq_incomplete {bs : List Byte} :
    decode bs = .incomplete ↔ ∀ L, frameLength bs = some L → bs.length < L := by
  constructor
  · intro h L hL
    cases bs with
    | nil => cases hL
    | cons b tail =>
      cases hop : opcodeOfByte b with
      | none => simp [decode, hop] at h
      | some op =>
        rw [decode_cons_of_opcode hop] at h
        obtain rfl := opcodeOfByte_eq_some.mp hop
        cases hp : parseOperands op tail with
        | none => exact length_lt_frameLength_of_parse_none hp hL
        | some r => simp [hp] at h
  · intro h
    cases hd : decode bs with
    | command i rest =>
      obtain ⟨hL, hlen⟩ := frameLength_of_command hd
      exact absurd (h _ hL) (by omega)
    | illegal b rest =>
      obtain ⟨hL, hlen⟩ := frameLength_of_illegal hd
      exact absurd (h _ hL) (by omega)
    | incomplete => rfl

end Sys2Proof

namespace Sys2Proof.Machine

open Sys2Proof.Safety

/-! ## Steps that begin with a decoded command -/

/-- A command takes no notice of the command stream and its cursor (30_encoding.md R91). -/
theorem command_withCommandStream (n : Nat) (i : Instr) (cmd : List Byte) (cc : Nat) (s : State) :
    command n i { s with cmd := cmd, cc := cc } = { command n i s with cmd := cmd, cc := cc } := by
  obtain ⟨out, -, h⟩ := command_withStreams n i s
  have hs := h s.cmd s.cc s.rsp s.rc
  exact (h cmd cc s.rsp s.rc).trans (congrArg (fun u : State => { u with cmd := cmd, cc := cc }) hs.symm)

/-- A stream that begins with encodings runs their commands one a step (30_encoding.md R91, 20_memory.md R68). -/
theorem run_commands (is : List Instr) (rest : List Byte) (s : State) (hwf : ∀ i ∈ is, i.wellFormed = true)
    (hR : s.RESET = false) (hH : s.HALTED = false) (hcmd : s.cmd = is.flatMap encode ++ rest) :
    Host.Core.run core is.length s = .next (runCommands Config.hcBlockWords is
      { s with cmd := rest, cc := s.cc + (is.map commandLength).sum }) := by
  induction is generalizing s with
  | nil =>
    obtain rfl : s.cmd = rest := hcmd
    rfl
  | cons i is ih =>
    obtain ⟨hi, his⟩ := List.forall_mem_cons.mp hwf
    have hd : decode s.cmd = .command i (is.flatMap encode ++ rest) := by
      rw [hcmd, List.flatMap_cons, List.append_assoc, decode_encode_append hi]
    have hstep := step_command hR hH hd
    obtain ⟨hcmd', hcc', hH', hR'⟩ :=
      command_frame Config.hcBlockWords i (consume (commandLength i) (is.flatMap encode ++ rest) s)
    rw [List.length_cons, run_next _ hstep, ih _ his (hR'.trans hR) (hH'.trans hH) hcmd', runCommands_cons, hcc',
      ← command_withCommandStream, List.map_cons, List.sum_cons, ← Nat.add_assoc]
    rfl

/-! ## The shape of a response -/

/-- A command is answered by a status of a command's own, and by a payload that is empty on an error and meets `payloadOk` on
success (30_encoding.md R100, R101). -/
def Answers (i : Instr) (s : State) (payloadOk : List Byte → Prop) : Prop :=
  ∃ (t : State) (status : Byte) (payload : List Byte),
    exec i s = .next t ∧ t.rsp = s.rsp ++ status :: payload ∧ t.rc = s.rc + 1 + payload.length ∧
    status ∈ ([0x00, 0x01, 0x02, 0x03, 0x10, 0x11, 0x12] : List Byte) ∧
    (status ≠ 0x00 → payload = []) ∧ (status = 0x00 → payloadOk payload)

/-- `rc` counts whatever bytes a command answers (10_state.md R26). -/
theorem command_rc {n : Nat} {i : Instr} {s : State} {out : List Byte} (h : (command n i s).rsp = s.rsp ++ out) :
    (command n i s).rc = s.rc + out.length := by
  obtain ⟨out', -, hrsp, hrc⟩ := command_response n i s
  rw [hrc, List.append_cancel_left (hrsp.symm.trans h)]

theorem Answers.of_status {i : Instr} {s : State} {e : Status} (he : e ≠ .illegalCommand)
    (h : (command Config.hcBlockWords i s).rsp = s.rsp ++ [statusCode e]) : Answers i s (· = []) := by
  have hmem : statusCode e ∈ ([0x00, 0x01, 0x02, 0x03, 0x10, 0x11, 0x12] : List Byte) := by revert he; cases e <;> decide
  exact ⟨_, _, [], exec_eq_command i s, h, command_rc h, hmem, fun _ => rfl, fun _ => rfl⟩

theorem Answers.of_notReady {i : Instr} {s : State} (h : command Config.hcBlockWords i s = raise .notReady s)
    (payloadOk : List Byte → Prop) : Answers i s payloadOk :=
  have hrsp := congrArg State.rsp h
  ⟨_, 0x11, [], exec_eq_command i s, hrsp, command_rc hrsp, by decide, fun _ => rfl, fun h0 => absurd h0 (by decide)⟩

theorem Answers.of_payload {i : Instr} {s : State} {payload : List Byte} {payloadOk : List Byte → Prop}
    (h : (command Config.hcBlockWords i s).rsp = s.rsp ++ 0x00 :: payload) (hp : payloadOk payload) :
    Answers i s payloadOk := by
  refine ⟨_, 0x00, payload, exec_eq_command i s, h, ?_, by decide, fun h0 => absurd rfl h0, fun _ => hp⟩
  rw [command_rc h, List.length_cons, Nat.add_assoc, Nat.add_comm 1]

/-- CONSTRUCT answers one status byte (40_keystream_engine.md R120). -/
theorem construct_status (n : Nat) (alg : Byte) (s : State) :
    ∃ e, e ≠ .illegalCommand ∧ (construct n alg s).rsp = s.rsp ++ [statusCode e] := by
  obtain ⟨-, h⟩ | ⟨-, h⟩ := construct_cases n alg s
  · exact ⟨.unknownAlgorithm, by decide, congrArg State.rsp h⟩
  · exact ⟨.ok, by decide, congrArg State.rsp h⟩

/-- INIT answers one status byte (40_keystream_engine.md R122, 60_exceptions.md R249). -/
theorem init_status (n : Nat) (key iv : List Byte) (pos : Pos) (s : State) :
    ∃ e, e ≠ .illegalCommand ∧ (init n key iv pos s).rsp = s.rsp ++ [statusCode e] := by
  unfold init
  split
  · exact ⟨.notConstructed, by decide, rfl⟩
  · split_ifs with _ _ hp
    · exact ⟨.invalidIVLength, by decide, rfl⟩
    · exact ⟨.unsupportedSeek, by decide, rfl⟩
    · rw [initEngine_eq _ _ _ _ _ _ fun hc => not_not.mp fun hne => hp ⟨hc, hne⟩]
      exact ⟨.ok, by decide, by simp⟩
    · exact ⟨.invalidKeyLength, by decide, rfl⟩

/-- SEEK answers one status byte (41_seekable.md R150). -/
theorem seek_status (n : Nat) (pos : Pos) (s : State) :
    ∃ e, e ≠ .illegalCommand ∧ (seek n pos s).rsp = s.rsp ++ [statusCode e] := by
  cases hr : readyCipher s with
  | none => exact ⟨.notReady, by decide, congrArg State.rsp (seek_notReady n pos hr)⟩
  | some c =>
    by_cases hp : c = .hc256 → pos = 0
    · exact ⟨.ok, by decide, by simp [seek_accepted n hr hp]⟩
    · push Not at hp
      obtain ⟨rfl, hne⟩ := hp
      exact ⟨.unsupportedSeek, by decide, congrArg State.rsp (seek_unsupportedSeek n hr hne)⟩

/-- The elements of a register file are its reads in order. -/
theorem RegFile.map_read_finRange {α : Type} {n : Nat} (f : RegFile α n) : (List.finRange n).map f.read = f.elems := by
  obtain ⟨elems, rfl⟩ := f
  exact List.map_get_finRange elems

/-! ## An APPLY in parts -/

/-- The outputs of APPLYs of the parts, one after the other. -/
def partOutputs (n : Nat) (c : Cipher) : List (List Byte) → State → List (List Byte)
  | [], _ => []
  | part :: parts, s => outputBytes n c part s :: partOutputs n c parts ((advanceByte n c)^[part.length] s)

theorem partOutputs_lengths (n : Nat) (c : Cipher) (parts : List (List Byte)) (s : State) :
    (partOutputs n c parts s).map List.length = parts.map List.length := by
  induction parts generalizing s with
  | nil => rfl
  | cons part parts ih => simp [partOutputs, ih]

/-- Cutting the data cuts the output at the same places (40_keystream_engine.md R130). -/
theorem flatten_partOutputs (n : Nat) (c : Cipher) (parts : List (List Byte)) (s : State) :
    (partOutputs n c parts s).flatten = outputBytes n c parts.flatten s := by
  induction parts generalizing s with
  | nil => rfl
  | cons part parts ih => rw [partOutputs, List.flatten_cons, List.flatten_cons, outputBytes_append, ih]

theorem partOutputs_rspWrite (n : Nat) (c : Cipher) (parts : List (List Byte)) (bs : List Byte) (s : State) :
    partOutputs n c parts (rspWrite bs s) = partOutputs n c parts s := by
  induction parts generalizing s with
  | nil => rfl
  | cons part parts ih => rw [partOutputs, partOutputs, outputBytes_rspWrite, iterate_advanceByte_rspWrite, ih]

/-- APPLYs of the parts answer a status and an output each, and advance the engine past all of their bytes
(40_keystream_engine.md R123, R130). -/
theorem runCommands_apply_parts {n : Nat} {c : Cipher} (parts : List (List Byte)) {s : State} (h : readyCipher s = some c) :
    runCommands n (parts.map .apply) s =
      rspWrite ((partOutputs n c parts s).flatMap fun out => statusCode .ok :: out)
        ((advanceByte n c)^[parts.flatten.length] s) := by
  induction parts generalizing s with
  | nil => simp [partOutputs, rspWrite]
  | cons part parts ih =>
    have hnext : readyCipher ((advanceByte n c)^[part.length] s) = some c := by
      rw [readyCipher_congr (iterate_advanceByte_ALG ..) (iterate_advanceByte_READY ..), h]
    rw [List.map_cons, runCommands_cons, command, apply_accepted n part h, ih (by rw [readyCipher_rspWrite, hnext]),
      partOutputs_rspWrite, iterate_advanceByte_rspWrite, rspWrite_rspWrite, ← Function.iterate_add_apply,
      partOutputs, List.flatMap_cons, List.flatten_cons, List.length_append, Nat.add_comm parts.flatten.length]

/-! ## The commands of an assembly line -/

theorem pieces_of_length_le {m : Nat} {bs : List Byte} (h : bs.length ≤ m) (fuel : Nat) : pieces m fuel bs = [bs] := by
  cases fuel with
  | zero => rfl
  | succ fuel => rw [pieces, if_pos h]

theorem flatten_pieces (m fuel : Nat) (bs : List Byte) : (pieces m fuel bs).flatten = bs := by
  induction fuel generalizing bs with
  | zero => simp [pieces]
  | succ fuel ih =>
    rw [pieces]
    split_ifs
    · simp
    · rw [List.flatten_cons, ih, List.take_append_drop]

/-- With a cut for every byte beyond the first `m`, no piece is longer than `m` bytes (30_encoding.md R111). -/
theorem length_le_of_mem_pieces {m fuel : Nat} {bs piece : List Byte} (hm : 0 < m) (hfuel : bs.length ≤ fuel + m)
    (h : piece ∈ pieces m fuel bs) : piece.length ≤ m := by
  induction fuel generalizing bs with
  | zero =>
    obtain rfl := List.mem_singleton.mp h
    omega
  | succ fuel ih =>
    rw [pieces] at h
    split_ifs at h with hle
    · obtain rfl := List.mem_singleton.mp h
      exact hle
    · rcases List.mem_cons.mp h with rfl | h
      · exact List.length_take_le ..
      · exact ih (by rw [List.length_drop]; omega) h

/-- The data of an APPLY command of a line fits the command's length field (30_encoding.md R96, R111). -/
theorem length_le_of_mem_applyPieces {data piece : List Byte} (h : piece ∈ pieces (2 ^ 32 - 1) data.length data) :
    piece.length ≤ 2 ^ 32 - 1 := length_le_of_mem_pieces (by decide) (Nat.le_add_right ..) h

theorem applyCommands_wellFormed {data : List Byte} {i : Instr} (h : i ∈ applyCommands data) : i.wellFormed = true := by
  obtain ⟨piece, hpiece, rfl⟩ := List.mem_map.mp h
  have hle := length_le_of_mem_applyPieces hpiece
  exact decide_eq_true (by omega)

theorem asmLine_init_eq_some {key iv : AsmBytes} {pos : Option Pos} {is : List Instr} :
    asmLine (.init key iv pos) = some is ↔
      ((asmBytes key).length ≤ 255 ∧ (asmBytes iv).length ≤ 255) ∧ [.init (asmBytes key) (asmBytes iv) (pos.getD 0)] = is := by
  rw [asmLine, Option.ite_none_right_eq_some, Option.some_inj]

theorem asmLine_init_eq_none {key iv : AsmBytes} {pos : Option Pos} :
    asmLine (.init key iv pos) = none ↔ 255 < (asmBytes key).length ∨ 255 < (asmBytes iv).length := by
  simp only [asmLine, ite_eq_right_iff, reduceCtorEq, imp_false, not_and_or, not_le]

/-- A line stands for well-formed commands (30_encoding.md R110). -/
theorem asmLine_wellFormed {line : AsmLine} {is : List Instr} (h : asmLine line = some is) :
    ∀ i ∈ is, i.wellFormed = true := by
  have happly {data : List Byte} (h : some (applyCommands data) = some is) : ∀ i ∈ is, i.wellFormed = true := by
    obtain rfl := Option.some.inj h
    exact fun i => applyCommands_wellFormed
  cases line with
  | init key iv pos =>
    obtain ⟨⟨hk, hv⟩, rfl⟩ := asmLine_init_eq_some.mp h
    rw [List.forall_mem_singleton, Instr.wellFormed, Bool.and_eq_true, decide_eq_true_iff, decide_eq_true_iff]
    omega
  | apply data | encrypt data | decrypt data | update data | keystream n => exact happly h
  | construct alg | seek pos | getpos | getiv | release =>
    obtain rfl := Option.some.inj h
    exact List.forall_mem_singleton.mpr rfl

theorem asmCommands_wellFormed {lines : List AsmLine} {is : List Instr} (h : asmCommands lines = some is) :
    ∀ i ∈ is, i.wellFormed = true := by
  induction lines generalizing is with
  | nil =>
    obtain rfl := Option.some.inj h
    exact List.forall_mem_nil _
  | cons line lines ih =>
    obtain ⟨first, hfirst, hmore⟩ := Option.bind_eq_some_iff.mp h
    obtain ⟨more, hlines, rfl⟩ := Option.map_eq_some_iff.mp hmore
    exact List.forall_mem_append.mpr ⟨asmLine_wellFormed hfirst, ih hlines⟩

end Sys2Proof.Machine

namespace Sys2Proof.Proofs

open Sys2Proof.Machine
open Sys2Proof.Safety

/-- Settles O1: each parser accepts the operands of its format, whatever follows them. -/
theorem decodeOfEncodeIsTheCommand : Obligations.DecodeOfEncodeIsTheCommand := fun _ rest h => decode_encode_append h rest

/-- Settles O2: each parser accepts the operands of its format and nothing else. -/
theorem decodedCommandIsItsEncoding : Obligations.DecodedCommandIsItsEncoding := fun _ _ _ h => decode_command h

/-- Settles O5: a command is as long as its frame, and a parser fails exactly where the frame is longer than the stream. -/
theorem frameLengthDecidesConsumption : Obligations.FrameLengthDecidesConsumption :=
  fun _ => ⟨fun _ _ h => frameLength_of_command h, decode_eq_incomplete⟩

/-- Settles O6: `fetch` consumes the bytes of the command it decodes, and every command completes. -/
theorem stepRunsTheDecodedCommand : Obligations.StepRunsTheDecodedCommand := by
  intro s i rest hR hH hd
  rw [step_command hR hH hd, exec_eq_command]
  rfl

/-- Settles O7: by the step on an illegal opcode, on a halted core, and the ways a step can have a next state. -/
theorem illegalOpcodeHaltsUntilReset : Obligations.IllegalOpcodeHaltsUntilReset := by
  refine ⟨fun s b rest hR hH hcmd hb => ?_, fun s hR hH => step_halted hR hH, fun s t hH h => ?_⟩
  · rw [step_illegal hR hH (decode_eq_illegal.mpr ⟨hcmd, opcodeOfByte_eq_none.mpr hb⟩)]
    rfl
  · obtain ⟨hR, rfl⟩ | ⟨-, hH', -⟩ | ⟨-, hH', -⟩ := step_cases h
    · exact ⟨hR, rfl⟩
    · simp [hH] at hH'
    · simp [hH] at hH'

/-- Settles O8: a frame longer than the stream is not decoded; one that has arrived whole is. -/
theorem incompleteCommandWaits : Obligations.IncompleteCommandWaits := by
  refine ⟨fun s b bs hR hH hcmd _ _ hshort => ?_, fun s i rest more hR hH hwf hcmd => ?_⟩
  · rw [step_incomplete hR hH (decode_eq_incomplete.mpr hshort), hcmd]
    rfl
  · exact stepRunsTheDecodedCommand (hostSend more s) i rest hR hH
      ((congrArg decode hcmd).trans (decode_encode_append hwf rest))

/-- Settles O14: by induction over the commands, each of which leaves the stream of the others. -/
theorem streamRunsItsCommands : Obligations.StreamRunsItsCommands := run_commands

/-- Settles O15: by command, and for APPLY, GETPOS and GETIV by whether the engine is ready. -/
theorem everyCommandAnswersOnce : Obligations.EveryCommandAnswersOnce := by
  intro i s
  cases i with
  | construct alg =>
    obtain ⟨e, he, h⟩ := construct_status Config.hcBlockWords alg s
    exact Answers.of_status he h
  | init key iv pos =>
    obtain ⟨e, he, h⟩ := init_status Config.hcBlockWords key iv pos s
    exact Answers.of_status he h
  | seek pos =>
    obtain ⟨e, he, h⟩ := seek_status Config.hcBlockWords pos s
    exact Answers.of_status he h
  | apply data =>
    cases hr : readyCipher s with
    | none => exact Answers.of_notReady (i := .apply data) (apply_notReady _ data hr) _
    | some c =>
      refine Answers.of_payload (payload := outputBytes Config.hcBlockWords c data s) ?_ (outputBytes_length ..)
      rw [command, apply_accepted _ data hr, rspWrite_rsp, iterate_advanceByte_rsp, statusCode]
  | getpos =>
    cases hr : readyCipher s with
    | none => exact Answers.of_notReady (i := .getpos) (getpos_notReady _ hr) _
    | some c =>
      obtain ⟨-, halg⟩ := readyCipher_eq_some.mp hr
      refine Answers.of_payload (congrArg State.rsp (getpos_accepted _ hr)) ⟨c, halg, ?_⟩
      rw [leBytes_eq_map, positionView, BitVec.toNat_ofNat]
  | getiv =>
    cases hr : readyCipher s with
    | none => exact Answers.of_notReady (i := .getiv) (getiv_notReady hr) _
    | some c =>
      obtain ⟨-, halg⟩ := readyCipher_eq_some.mp hr
      refine Answers.of_payload (congrArg State.rsp (getiv_accepted hr)) ⟨c, halg, ?_⟩
      rw [← RegFile.map_read_finRange, List.map_take]

/-- Settles O53: line by line; the pieces of an APPLY fit its length field, and INIT alone is checked. -/
theorem assembledProgramsAreCommands : Obligations.AssembledProgramsAreCommands := by
  refine ⟨fun lines bytes h => ?_, fun line => ⟨fun h => ?_, ?_⟩⟩
  · obtain ⟨is, his, rfl⟩ := Option.map_eq_some_iff.mp h
    exact ⟨is, his, rfl, asmCommands_wellFormed his⟩
  · cases line with
    | init key iv pos => exact ⟨key, iv, pos, rfl, asmLine_init_eq_none.mp h⟩
    | _ => cases h
  · rintro ⟨key, iv, pos, rfl, hlong⟩
    exact asmLine_init_eq_none.mpr hlong

/-- Settles O55: both ways the engine goes through the same bytes, and the outputs are cut where the data is. -/
theorem partsOfAnApplyAnswerAlike : Obligations.PartsOfAnApplyAnswerAlike := by
  intro parts s hready halg
  obtain ⟨c, hc⟩ := Option.ne_none_iff_exists'.mp halg
  rw [runCommands_apply_parts parts (readyCipher_eq_some.mpr ⟨hready, hc⟩)]
  refine ⟨partOutputs Config.hcBlockWords c parts s, _, partOutputs_lengths .., exec_apply_accepted hready hc _, ?_, ?_, rfl⟩
  · rw [rspWrite_rsp, iterate_advanceByte_rsp, flatten_partOutputs, statusCode]
  · rw [rspWrite_rsp, iterate_advanceByte_rsp, statusCode]

/-- Settles O3: the decoder is run on the six byte strings. -/
theorem formatTableBytesDecode : Obligations.FormatTableBytesDecode := by
  refine ⟨?_, ?_, ?_, ?_, ?_, ?_⟩ <;> decide

/-- Settles O4: a byte is illegal exactly when the opcode map has no row for it. -/
theorem illegalOpcodesAreTheUnlistedBytes : Obligations.IllegalOpcodesAreTheUnlistedBytes := by
  intro b bs
  rw [decode_eq_illegal, opcodeOfByte_eq_none, and_iff_right rfl]

/-- Settles O54: an APPLY is its pieces, which are the data itself where it fits one command. -/
theorem pseudoInstructionsExpand : Obligations.PseudoInstructionsExpand := by
  refine ⟨fun _ _ => rfl, fun _ => ⟨rfl, rfl, rfl⟩, fun _ => rfl, rfl, fun data hlen => ?_, fun data => ?_⟩
  · rw [asmLine, applyCommands, pieces_of_length_le (by omega)]
    rfl
  · exact ⟨_, rfl, flatten_pieces .., fun _ => length_le_of_mem_applyPieces⟩

end Sys2Proof.Proofs
end

section
/-!
PROOFS of the statements about 40_keystream_engine.md. First the rules they share: what CONSTRUCT and APPLY answer, the
byte APPLY takes from a block word, the position and the frame it leaves, and engines after an INIT with the same operands.
-/

namespace Sys2Proof.Machine

open Sys2Proof.Safety

/-! ## What CONSTRUCT and APPLY answer -/

/-- CONSTRUCT with the code of an algorithm selects it on the released engine (R120). -/
theorem construct_accepted {alg : Byte} (h : alg.toNat ≤ 3) (n : Nat) (s : State) :
    construct n alg s = rspWrite [statusCode .ok] (selectAlg n (algOfCode (alg.extractLsb' 0 2)) (release s)) :=
  if_neg (Nat.not_lt.mpr h)

theorem readyCipher_iterate_advanceByte (n : Nat) (c : Cipher) (k : Nat) (s : State) :
    readyCipher ((advanceByte n c)^[k] s) = readyCipher s :=
  readyCipher_congr (iterate_advanceByte_ALG n c k s) (iterate_advanceByte_READY n c k s)

/-- APPLY on a ready engine answers `00` and then its output bytes (R123). -/
theorem apply_rsp (n : Nat) (data : List Byte) {s : State} {c : Cipher} (h : readyCipher s = some c) :
    (apply n data s).rsp = s.rsp ++ 0x00 :: outputBytes n c data s := by
  rw [apply_accepted n data h, rspWrite_rsp, iterate_advanceByte_rsp, statusCode]

/-! ## One byte of APPLY -/

/-- The byte used next is byte `BLOCKOFFSET mod 4` of the block word at `BLOCKOFFSET / 4`, by arithmetic (00_scope.md R11). -/
theorem nextByte_of_getElem? {s : State} {w : Word} (h : s.B[s.BLOCKOFFSET / 4]? = some w) :
    nextByte s = BitVec.ofNat 8 (w.toNat / 2 ^ (8 * (s.BLOCKOFFSET % 4))) := by
  rw [nextByte, blockByte, List.getD_eq_getElem?_getD, h, Option.getD_some, byteOfWord_eq]

/-- One input byte more is one output byte more and one more advance, from the state the other bytes leave (R123, R124). -/
theorem apply_append_singleton {n : Nat} {s : State} {c : Cipher} (h : readyCipher s = some c) (data : List Byte) (b : Byte) :
    apply n (data ++ [b]) s =
      rspWrite [b ^^^ nextByte (apply n data s)] (advanceByte n c (apply n data s)) := by
  rw [apply_accepted n _ h, apply_accepted n _ h, nextByte_rspWrite, advanceByte_rspWrite, rspWrite_rspWrite,
    outputBytes_append, List.length_append, List.length_singleton, Function.iterate_succ_apply']
  rfl

/-! ## The position and the frame of APPLY -/

theorem blockIndex_eq_ofNat (s : State) : s.BLOCKINDEX = BitVec.ofNat 64 s.BLOCKINDEX.toNat := by
  rw [BitVec.ofNat_toNat, BitVec.setWidth_eq]

/-- While the position does not pass 2^64 the block index does not wrap, since a block has at least four bytes
(70_reset_and_hazards.md R295). -/
theorem blockIndex_lt {n m p : Nat} {c : Cipher} (hn : 0 < n) (h : m * blockBytes n c ≤ p) (hp : p ≤ 2 ^ 64) :
    m < 2 ^ 64 := by
  have hbytes : 4 ≤ blockBytes n c := by cases c <;> simp only [blockBytes, blockWords] <;> omega
  have hle : m * 4 ≤ m * blockBytes n c := Nat.mul_le_mul_left m hbytes
  omega

/-- `k` bytes further, short of position 2^64: the position without reduction, and the block held there (R129). -/
theorem absolutePosition_iterate_advanceByte {n k : Nat} {c : Cipher} {s : State} (hn : 0 < n)
    (hb : holdsBlock n c s s.BLOCKINDEX.toNat) (hend : absolutePosition n c s + k ≤ 2 ^ 64) :
    absolutePosition n c ((advanceByte n c)^[k] s) = absolutePosition n c s + k ∧
      holdsBlock n c ((advanceByte n c)^[k] s) ((advanceByte n c)^[k] s).BLOCKINDEX.toNat := by
  obtain ⟨m, hidx, hb', hpos⟩ := holdsBlock_iterate_advanceByte k (blockIndex_eq_ofNat s) hb
  have hm : m < 2 ^ 64 := blockIndex_lt hn (Nat.le_of_add_right_le hpos.le) hend
  have htoNat : ((advanceByte n c)^[k] s).BLOCKINDEX.toNat = m := by rw [hidx, BitVec.toNat_ofNat, Nat.mod_eq_of_lt hm]
  rw [absolutePosition, htoNat]
  exact ⟨hpos, hb'⟩

/-- Where the scratch lanes are zero, advancing past bytes changes the position, the block and the tables alone
(10_state.md R33). -/
theorem iterate_advanceByte_frame_of_lanesClear (n : Nat) (c : Cipher) (k : Nat) {s : State}
    (hX : s.X = RegFile.fill 16 0)
    (hS : s.S = RegFile.fill 16 0) :
    (advanceByte n c)^[k] s = { s with
      BLOCKINDEX := ((advanceByte n c)^[k] s).BLOCKINDEX, BLOCKOFFSET := ((advanceByte n c)^[k] s).BLOCKOFFSET
      B := ((advanceByte n c)^[k] s).B, tab := ((advanceByte n c)^[k] s).tab } := by
  obtain ⟨hX', hS'⟩ := iterate_advanceByte_lanesClear n c k ⟨hX, hS⟩
  refine (iterate_advanceByte_frame n c k s).trans ?_
  rw [hX'.trans hX.symm, hS'.trans hS.symm]

/-! ## Engines after an accepted INIT -/

theorem readyCipher_init_accepted (n : Nat) {key iv : List Byte} {pos : Pos} {s : State} {c : Cipher} (h : s.ALG = some c)
    (hk : key.length = 32) (hv : iv.length = ivBytes c) (hp : c = .hc256 → pos = 0) :
    readyCipher (init n key iv pos s) = some c := by
  rw [init_accepted n h hk hv hp, readyCipher_rspWrite, readyCipher_eq_some]
  exact ⟨positioned_READY .., (positioned_ALG ..).trans h⟩

/-- INIT with the same operands makes any two engines of one algorithm alike (R131). -/
theorem alike_init_accepted {n m : Nat} (hn : 0 < n) (hm : 0 < m) {key iv : List Byte} {pos : Pos} {s t : State} {c : Cipher}
    (hs : s.ALG = some c) (ht : t.ALG = some c) (hk : key.length = 32) (hv : iv.length = ivBytes c)
    (hp : c = .hc256 → pos = 0) : Alike n m (init n key iv pos s) (init m key iv pos t) := by
  have hiv : ∀ i : Fin 32, i.val < ivBytes c → (storeIV iv s.IVB).read i = (storeIV iv t.IVB).read i := fun i hi => by
    rw [storeIV_read_given _ i (hv ▸ hi), storeIV_read_given _ i (hv ▸ hi)]
  rw [init_accepted n hs hk hv hp, init_accepted m ht hk hv hp]
  exact (alike_positioned hn hm _ hs ht hp hiv).rspWrite _ _

end Sys2Proof.Machine

namespace Sys2Proof.Proofs

open Sys2Proof.Machine
open Sys2Proof.Safety

/-- Settles O46: the output is the keystream by position; the block index counts blocks without a wrap up to position 2^64; and
the zero scratch lanes stay zero. -/
theorem applyOutputsTheKeystream : Obligations.ApplyOutputsTheKeystream := by
  intro c data s hinv hready halg hblock hend
  have hoff : s.BLOCKOFFSET < blockBytes Config.hcBlockWords c := by
    obtain ⟨c', -, halg', hoff, -, -⟩ := hinv.ready hready
    obtain rfl : c = c' := by simpa [halg] using halg'
    exact hoff
  obtain ⟨hpos, hblock'⟩ := absolutePosition_iterate_advanceByte hcBlockWords_pos hblock hend
  obtain ⟨hX, hS⟩ := hinv.lanesClear
  have hframe := iterate_advanceByte_frame_of_lanesClear Config.hcBlockWords c data.length hX hS
  refine ⟨_, exec_apply_accepted hready halg data, ?_, ?_, hpos, iterate_advanceByte_offset_lt _ hoff, ?_,
    iterate_advanceByte_tab _ _ s, ?_⟩
  · rw [rspWrite_rsp, iterate_advanceByte_rsp, outputBytes_eq_keystream data (blockIndex_eq_ofNat s) hblock hoff]
    rfl
  · rw [rspWrite_rc, List.length_cons, outputBytes_length, hframe, Nat.add_assoc, Nat.add_comm 1]
  · cases c <;> exact hblock'
  · rw [hframe]
    rfl

/-- Settles O17: by the check of the code, then by each of the four codes. -/
theorem constructReleasesAndSelects : Obligations.ConstructReleasesAndSelects := by
  intro alg s
  refine ⟨fun h => congrArg Host.Outcome.next (if_pos h), fun c words h => ?_⟩
  rw [exec_eq_command, command]
  obtain ⟨rfl, rfl, rfl⟩ | ⟨rfl, rfl, rfl⟩ | ⟨rfl, rfl, rfl⟩ | ⟨rfl, rfl, rfl⟩ := h <;>
    rw [construct_accepted (by decide)] <;> rfl

/-- Settles O18: each check in turn; the key words and the IV bytes stored are read back. -/
theorem initStoresKeyAndPositions : Obligations.InitStoresKeyAndPositions := by
  intro key iv pos s
  refine ⟨fun h => congrArg Host.Outcome.next (init_notConstructed _ key iv pos h), fun c h => ⟨fun hk => ?_, fun hk hv => ?_,
    fun hk hv hc hp => ?_, fun hk hv hp => ?_⟩⟩
  · exact congrArg Host.Outcome.next (init_invalidKeyLength _ iv pos h hk)
  · exact congrArg Host.Outcome.next (init_invalidIVLength _ pos h hk hv)
  · subst hc
    exact congrArg Host.Outcome.next (init_unsupportedSeek _ h hk hv hp)
  · refine ⟨keyWords ⟨key, hk⟩, storeIV iv s.IVB, fun i => ?_, fun i hi => storeIV_read_given _ i (hv ▸ hi),
      fun i hi => storeIV_read_kept _ i (hv ▸ hi), congrArg Host.Outcome.next (init_accepted _ h hk hv hp)⟩
    rw [keyWords_read, le32_toNat]

/-- Settles O21: one byte more is one XOR with the byte used next and one advance. -/
theorem applyXorsTheKeystream : Obligations.ApplyXorsTheKeystream := by
  intro s
  refine ⟨fun h data => congrArg Host.Outcome.next (apply_notReady _ data (readyCipher_eq_none.mpr h)),
    fun c hready halg => ⟨exec_apply_accepted hready halg [], fun data => ⟨_, rfl, fun b w hw => ?_⟩⟩⟩
  rw [← nextByte_of_getElem? hw, ← advanceByte_eq]
  exact congrArg Host.Outcome.next (apply_append_singleton (readyCipher_eq_some.mpr ⟨hready, halg⟩) data b)

/-- Settles O22: the position view, byte by byte. -/
theorem getposReportsThePosition : Obligations.GetposReportsThePosition := by
  intro s
  refine ⟨fun h => congrArg Host.Outcome.next (getpos_notReady _ (readyCipher_eq_none.mpr h)), fun c hready halg => ?_⟩
  rw [exec_eq_command, command, getpos_accepted _ (readyCipher_eq_some.mpr ⟨hready, halg⟩), leBytes_eq_map, positionView,
    BitVec.toNat_ofNat]
  rfl

/-- Settles O23: the IV bytes the algorithm takes are the first reads of the file. -/
theorem getivReportsTheIV : Obligations.GetivReportsTheIV := by
  intro s
  refine ⟨fun h => congrArg Host.Outcome.next (getiv_notReady (readyCipher_eq_none.mpr h)), fun a hready halg => ?_,
    fun hready halg => ?_⟩
  · rw [exec_eq_command, command, getiv_accepted (readyCipher_eq_some.mpr ⟨hready, halg⟩), List.map_take,
      RegFile.map_read_finRange]
    rfl
  · rw [exec_eq_command, command, getiv_accepted (readyCipher_eq_some.mpr ⟨hready, halg⟩), RegFile.map_read_finRange,
      ivBytes, List.take_of_length_le s.IVB.size.le]
    rfl

/-- Settles O47: both ways the engine goes through the same bytes, and the output is cut where the message is. -/
theorem splitApplyEqualsWholeApply : Obligations.SplitApplyEqualsWholeApply := by
  intro s m1 m2 hready halg
  obtain ⟨c, hc⟩ := Option.ne_none_iff_exists'.mp halg
  have hs : readyCipher s = some c := readyCipher_eq_some.mpr ⟨hready, hc⟩
  have ht1 : readyCipher (apply Config.hcBlockWords m1 s) = some c := by
    rw [apply_accepted _ m1 hs, readyCipher_rspWrite, readyCipher_iterate_advanceByte, hs]
  refine ⟨_, _, _, _, _, rfl, apply_rsp _ m1 hs, outputBytes_length .., rfl, apply_rsp _ m2 ht1, outputBytes_length ..,
    rfl, ?_, ?_⟩
  · rw [apply_rsp _ _ hs, outputBytes_append, apply_accepted _ m1 hs, outputBytes_rspWrite]
  · rw [apply_accepted _ m2 ht1, apply_accepted _ m1 hs, apply_accepted _ (m1 ++ m2) hs, iterate_advanceByte_rspWrite,
      ← Function.iterate_add_apply, List.length_append, Nat.add_comm m1.length]
    rfl

/-- Settles O48: INIT leaves alike engines, which use the same keystream bytes, and XOR with the same bytes undoes itself. -/
theorem roundTripAndDeterminism : Obligations.RoundTripAndDeterminism := by
  intro n m c key iv pos s t msg hn hm hs ht hk hv hp s1 t1
  have hs1 : readyCipher s1 = some c := readyCipher_init_accepted n hs hk hv hp
  have ht1 : readyCipher t1 = some c := readyCipher_init_accepted m ht hk hv hp
  have hout : outputBytes n c msg s1 = outputBytes m c msg t1 :=
    (alike_init_accepted hn hm hs ht hk hv hp).outputBytes_eq hs1 msg
  refine ⟨outputBytes m c msg t1, ?_, apply_rsp m msg ht1, ?_⟩
  · rw [command, apply_rsp n msg hs1, hout]
  · rw [command, apply_rsp m _ ht1, outputBytes_outputBytes]

end Sys2Proof.Proofs
end

section
/-!
PROOFS of the statements about 41_seekable.md. First the rules they share: what positioning forgets of the engine it finds, SEEK
after INIT, and the keystream an APPLY of zero bytes shows.
-/

namespace Sys2Proof.Machine

open Sys2Proof.Safety

/-! ## Positioning again -/

theorem positioned_rspWrite (n : Nat) (c : Cipher) (k : RegFile Word 8) (v : RegFile Byte 32) (pos : Pos) (bs : List Byte)
    (s : State) : positioned n c k v pos (rspWrite bs s) = rspWrite bs (positioned n c k v pos s) := by cases c <;> rfl

/-- Nothing of the key, IV and position before is left (R150). -/
theorem positioned_positioned (n : Nat) (c : Cipher) (k k' : RegFile Word 8) (v v' : RegFile Byte 32) (pos pos' : Pos)
    (s : State) : positioned n c k v pos (positioned n c k' v' pos' s) = positioned n c k v pos s := by cases c <;> rfl

/-- SEEK after an accepted INIT leaves, but for its own status byte, what INIT at the target leaves (R152, D14). -/
theorem seek_init_accepted (n : Nat) {key iv : List Byte} {start pos : Pos} {s : State} {c : Cipher} (h : s.ALG = some c)
    (hk : key.length = 32) (hv : iv.length = ivBytes c) (hstart : c = .hc256 → start = 0) (hp : c = .hc256 → pos = 0) :
    seek n pos (init n key iv start s) = rspWrite [statusCode .ok] (init n key iv pos s) := by
  rw [seek_accepted n (readyCipher_init_accepted n h hk hv hstart) hp, init_accepted n h hk hv hstart,
    init_accepted n h hk hv hp, rspWrite_K, rspWrite_IVB, positioned_K, positioned_IVB, positioned_rspWrite,
    positioned_positioned]

/-! ## The keystream from a position on -/

/-- Zero bytes come out as the keystream bytes themselves (40_keystream_engine.md R129). -/
theorem outputBytes_zeros_positioned {n : Nat} (hn : 0 < n) {c : Cipher} (k : RegFile Word 8) (v : RegFile Byte 32) {pos : Pos}
    (len : Nat) (s : State) (hp : c = .hc256 → pos = 0) :
    outputBytes n c (List.replicate len 0) (positioned n c k v pos s) =
      (List.range len).map fun i => keystreamByte c k v (pos.toNat + i) := by
  obtain ⟨hb, hidx, hoff⟩ := holdsBlock_positioned (n := n) k v s hp
  have hlt : (positioned n c k v pos s).BLOCKOFFSET < blockBytes n c := hoff ▸ Nat.mod_lt _ (blockBytes_pos hn c)
  rw [outputBytes_eq_keystream _ hidx hb hlt, hoff, Nat.div_add_mod', positioned_K, positioned_IVB]
  exact List.ext_getElem (by simp) fun i _ _ => by simp

/-- What an APPLY of zero bytes shows right after an INIT: the keystream from the start position on (R153). -/
theorem outputBytes_zeros_init {n : Nat} (hn : 0 < n) {key iv : List Byte} {pos : Pos} {s : State} {c : Cipher} (len : Nat)
    (h : s.ALG = some c) (hk : key.length = 32) (hv : iv.length = ivBytes c) (hp : c = .hc256 → pos = 0) :
    outputBytes n c (List.replicate len 0) (init n key iv pos s) =
      (List.range len).map fun i => keystreamByte c (keyWords ⟨key, hk⟩) (storeIV iv s.IVB) (pos.toNat + i) := by
  rw [init_accepted n h hk hv hp, outputBytes_rspWrite, outputBytes_zeros_positioned hn _ _ _ _ hp]

end Sys2Proof.Machine

namespace Sys2Proof.Proofs

open Sys2Proof.Machine
open Sys2Proof.Safety

/-- Settles O19: each check in turn, then the accepted SEEK. -/
theorem seekRepositionsTheEngine : Obligations.SeekRepositionsTheEngine := by
  intro pos s
  refine ⟨fun h => congrArg Host.Outcome.next (seek_notReady _ pos (readyCipher_eq_none.mpr h)), fun c hready halg => ?_⟩
  have hs : readyCipher s = some c := readyCipher_eq_some.mpr ⟨hready, halg⟩
  refine ⟨fun hc hp => ?_, fun hp => congrArg Host.Outcome.next (seek_accepted _ hs hp)⟩
  subst hc
  exact congrArg Host.Outcome.next (seek_unsupportedSeek _ hs hp)

/-- Settles O20: both commands position the engine on the same key, IV and start, and an HC-256 engine so positioned keeps no
other register or memory of what it was. -/
theorem seekZeroRestartsHc256 : Obligations.SeekZeroRestartsHc256 := by
  intro key iv s u t hs hk hv hu hready ht hK hIV
  have hinit := init_accepted Config.hcBlockWords (pos := 0) hs hk hv fun _ => rfl
  obtain rfl : init Config.hcBlockWords key iv 0 s = u := Host.Outcome.next.inj hu
  have hseek := seek_accepted Config.hcBlockWords (pos := 0) (readyCipher_eq_some.mpr ⟨hready, ht⟩) fun _ => rfl
  rw [hinit, rspWrite_K, positioned_K] at hK
  rw [hinit, rspWrite_IVB, positioned_IVB] at hIV
  refine ⟨_, congrArg Host.Outcome.next hseek, ?_⟩
  rw [hinit, hK, hIV]
  exact ⟨ht.trans hs.symm, rfl, rfl, rfl, rfl, rfl, rfl, rfl, rfl⟩

/-- Settles O49: SEEK after INIT adds its status byte to the state of the positional INIT. -/
theorem positionalInitIsInitThenSeek : Obligations.PositionalInitIsInitThenSeek := by
  refine ⟨fun a key iv pos s halg hk hv => ?_, fun key iv pos s halg hk hv hp =>
    congrArg Host.Outcome.next (init_unsupportedSeek _ halg hk hv hp)⟩
  refine ⟨_, _, _, rfl, rfl, congrArg Host.Outcome.next (seek_init_accepted _ halg hk hv nofun nofun), rfl, ?_⟩
  rw [init_accepted _ halg hk hv nofun]
  have hidx : pos.toNat / 64 < 2 ^ 64 := by omega
  exact ⟨(BitVec.toNat_ofNat ..).trans (Nat.mod_eq_of_lt hidx), rfl, rfl⟩

/-- Settles O50: from either start the keystream is the same function of the position counted without reduction, so the premise
of R295 is not needed. -/
theorem seekEquivalence : Obligations.SeekEquivalence := by
  intro a key iv pos len s halg hk hv _
  have hready (p : Pos) : readyCipher (init Config.hcBlockWords key iv p s) = some (.arx a) :=
    readyCipher_init_accepted _ halg hk hv nofun
  have hout (p : Pos) (l : Nat) := outputBytes_zeros_init hcBlockWords_pos (pos := p) l halg hk hv nofun
  refine ⟨_, _, _, _, _, _, _, _, rfl, rfl, congrArg Host.Outcome.next (seek_init_accepted _ halg hk hv nofun nofun),
    rfl, apply_rsp _ _ (hready pos), rfl, ?_, rfl, apply_rsp _ _ (hready 0), ?_, ?_⟩
  · rw [apply_rsp _ _ ((readyCipher_rspWrite ..).trans (hready pos)), outputBytes_rspWrite]
  · rw [hout, hout]
    exact List.ext_getElem (by simp) fun i _ _ => by simp
  · rw [hout, init_accepted _ halg hk hv nofun, rspWrite_K, rspWrite_IVB, positioned_K, positioned_IVB]

end Sys2Proof.Proofs
end

section
/-!
PROOFS of the statements about 42_arx_family.md. First the rules they share: what it is for an operation on the lanes to act on
some of them only, and which writes to a lane can be undone.
-/

namespace Sys2Proof.Machine

/-! ## Operations that act on some lanes only -/

/-- `f` keeps every lane but `lanes`, and what it leaves in those depends on those alone. -/
structure ActsOn (lanes : List (Fin 16)) (f : Lanes → Lanes) : Prop where
  keeps : ∀ l, ∀ i ∉ lanes, (f l).read i = l.read i
  depends : ∀ l m, (∀ i ∈ lanes, l.read i = m.read i) → ∀ i ∈ lanes, (f l).read i = (f m).read i

section
variable {lanes others : List (Fin 16)} {f g : Lanes → Lanes}

theorem ActsOn.comp (hg : ActsOn lanes g) (hf : ActsOn lanes f) : ActsOn lanes (g ∘ f) where
  keeps l i hi := (hg.keeps _ i hi).trans (hf.keeps l i hi)
  depends l m h := hg.depends _ _ (hf.depends l m h)

theorem ActsOn.write {z : Fin 16} {v : Lanes → Word} (hz : z ∈ lanes)
    (hv : ∀ l m : Lanes, (∀ i ∈ lanes, l.read i = m.read i) → v l = v m) : ActsOn lanes fun l => l.write z (v l) where
  keeps l i hi := RegFile.read_write_other l _ fun h => hi (h ▸ hz)
  depends l m h i hi := by rw [RegFile.read_write, RegFile.read_write, hv l m h, h i hi]

theorem ActsOn.read_comp_of_disjoint (hf : ActsOn lanes f) (hg : ActsOn others g) (hd : lanes.Disjoint others) (l : Lanes)
    {i : Fin 16} (hi : i ∈ lanes) : (f (g l)).read i = (f l).read i :=
  hf.depends _ _ (fun j hj => hg.keeps l j (hd hj)) i hi

/-- Operations on disjoint lanes commute (42_arx_family.md R171). -/
theorem ActsOn.commute (hf : ActsOn lanes f) (hg : ActsOn others g) (hd : lanes.Disjoint others) (l : Lanes) :
    f (g l) = g (f l) := by
  apply RegFile.ext_read
  intro i
  by_cases hi : i ∈ lanes
  · rw [hf.read_comp_of_disjoint hg hd l hi, hg.keeps _ i (hd hi)]
  · rw [hf.keeps _ i hi]
    by_cases hi' : i ∈ others
    · rw [hg.read_comp_of_disjoint hf hd.symm l hi']
    · rw [hg.keeps _ i hi', hg.keeps _ i hi', hf.keeps _ i hi]

theorem salsaStep_actsOn {z x y : Fin 16} (r : Nat) (hz : z ∈ lanes) (hx : x ∈ lanes) (hy : y ∈ lanes) :
    ActsOn lanes (salsaStep z x y r) :=
  .write hz fun l m h => by rw [h z hz, h x hx, h y hy]

theorem chachaStep_actsOn {x y z : Fin 16} (r : Nat) (hx : x ∈ lanes) (hy : y ∈ lanes) (hz : z ∈ lanes) :
    ActsOn lanes (chachaStep x y z r) := by
  have hadd : ActsOn lanes fun l => l.write x (l.read x + l.read y) := .write hx fun l m h => by rw [h x hx, h y hy]
  have hxor : ActsOn lanes fun l => l.write z (l.read z ^^^ l.read x) := .write hz fun l m h => by rw [h z hz, h x hx]
  have hrot : ActsOn lanes fun l => l.write z (rotl (l.read z) r) := .write hz fun l m h => by rw [h z hz]
  exact hrot.comp (hxor.comp hadd)

end

/-- The lanes of a quadruple. -/
def Quad.lanes (q : Quad) : List (Fin 16) := [q.a, q.b, q.c, q.d]

theorem quarterRound_actsOn (a : Arx) (q : Quad) : ActsOn q.lanes (quarterRound a q) := by
  have ha : q.a ∈ q.lanes := by simp [Quad.lanes]
  have hb : q.b ∈ q.lanes := by simp [Quad.lanes]
  have hc : q.c ∈ q.lanes := by simp [Quad.lanes]
  have hd : q.d ∈ q.lanes := by simp [Quad.lanes]
  cases a with
  | salsa20 =>
    exact (salsaStep_actsOn 18 ha hd hc).comp ((salsaStep_actsOn 13 hd hc hb).comp
      ((salsaStep_actsOn 9 hc hb ha).comp (salsaStep_actsOn 7 hb ha hd)))
  | chacha20 =>
    exact (chachaStep_actsOn 7 hc hd hb).comp ((chachaStep_actsOn 8 ha hb hd).comp
      ((chachaStep_actsOn 12 hc hd hb).comp (chachaStep_actsOn 16 ha hb hd)))

/-! ## Writes that can be undone -/

/-- Replacing a lane is injective where the new value is injective in the old one and takes no other notice of that lane. -/
theorem injective_write {z : Fin 16} {v : Lanes → Word → Word} (hinj : ∀ l, Function.Injective (v l))
    (hv : ∀ l m : Lanes, (∀ i, z ≠ i → l.read i = m.read i) → v l = v m) :
    Function.Injective fun l : Lanes => l.write z (v l (l.read z)) := by
  intro l m h
  have hread (i : Fin 16) : (l.write z (v l (l.read z))).read i = (m.write z (v m (m.read z))).read i :=
    congrArg (RegFile.read · i) h
  have hrest (i : Fin 16) (hi : z ≠ i) : l.read i = m.read i := by
    simpa only [RegFile.read_write_other _ _ hi] using hread i
  have hz : v l (l.read z) = v l (m.read z) := by
    simpa only [RegFile.read_write_same, hv m l fun i hi => (hrest i hi).symm] using hread z
  apply RegFile.ext_read
  intro i
  by_cases hi : z = i
  · exact hi ▸ hinj l hz
  · exact hrest i hi

theorem salsaStep_injective {z x y : Fin 16} (r : Nat) (hx : z ≠ x) (hy : z ≠ y) : Function.Injective (salsaStep z x y r) :=
  injective_write (v := fun l w => w ^^^ rotl (l.read x + l.read y) r) (fun _ _ _ => (BitVec.xor_left_inj _).mp)
    fun l m h => by rw [h x hx, h y hy]

theorem chachaStep_injective {x y z : Fin 16} {r : Nat} (hr : r < 32) (hxy : x ≠ y) (hzx : z ≠ x) :
    Function.Injective (chachaStep x y z r) := by
  have hadd : Function.Injective fun l : Lanes => l.write x (l.read x + l.read y) :=
    injective_write (v := fun l w => w + l.read y) (fun l => add_left_injective _) fun l m h => by rw [h y hxy]
  have hxor : Function.Injective fun l : Lanes => l.write z (l.read z ^^^ l.read x) :=
    injective_write (v := fun l w => w ^^^ l.read x) (fun _ _ _ => (BitVec.xor_left_inj _).mp) fun l m h => by rw [h x hzx]
  have hrot : Function.Injective fun l : Lanes => l.write z (rotl (l.read z) r) :=
    injective_write (v := fun _ w => rotl w r) (fun _ => rotl_injective r hr) fun _ _ _ => rfl
  exact hrot.comp (hxor.comp hadd)

theorem quarterRound_injective (a : Arx) {q : Quad} (hq : q.lanes.Nodup) : Function.Injective (quarterRound a q) := by
  obtain ⟨⟨hab, hac, had⟩, ⟨hbc, hbd⟩, hcd⟩ :
      (q.a ≠ q.b ∧ q.a ≠ q.c ∧ q.a ≠ q.d) ∧ (q.b ≠ q.c ∧ q.b ≠ q.d) ∧ q.c ≠ q.d := by
    simpa [Quad.lanes] using hq
  cases a with
  | salsa20 =>
    exact (salsaStep_injective 18 had hac).comp ((salsaStep_injective 13 hcd.symm hbd.symm).comp
      ((salsaStep_injective 9 hbc.symm hac.symm).comp (salsaStep_injective 7 hab.symm hbd)))
  | chacha20 =>
    exact (chachaStep_injective (by decide) hcd hbc).comp ((chachaStep_injective (by decide) hab had.symm).comp
      ((chachaStep_injective (by decide) hcd hbc).comp (chachaStep_injective (by decide) hab had.symm)))

/-- Finitely many words in finitely many lanes. -/
theorem finite_lanes : Finite Lanes :=
  Finite.of_injective (fun l : Lanes => l.read) fun _ _ h => RegFile.ext_read (congrFun h)

/-! ## The quadruples of a round -/

/-- Each round's quadruples are a partition of the lanes (42_arx_family.md R171). -/
theorem count_lanes_roundQuads {a : Arx} {quads : List Quad} (h : quads = firstRoundQuads a ∨ quads = secondRoundQuads a) :
    ∀ i, (quads.flatMap Quad.lanes).count i = 1 := by
  obtain rfl | rfl := h <;> cases a <;> decide

theorem nodup_lanes_roundQuads {a : Arx} {quads : List Quad} (h : quads = firstRoundQuads a ∨ quads = secondRoundQuads a) :
    (quads.flatMap Quad.lanes).Nodup :=
  List.nodup_iff_count_le_one.mpr fun i => (count_lanes_roundQuads h i).le

theorem arxRound_injective (a : Arx) {quads : List Quad} (h : (quads.flatMap Quad.lanes).Nodup) :
    Function.Injective (arxRound a quads) := by
  induction quads with
  | nil => exact Function.injective_id
  | cons q quads ih =>
    rw [List.flatMap_cons, List.nodup_append'] at h
    obtain ⟨hq, hquads, -⟩ := h
    exact (ih hquads).comp (quarterRound_injective a hq)

/-- Quarter-rounds on quadruples that share no lane may be done in any order (42_arx_family.md R171). -/
theorem arxRound_perm (a : Arx) {quads other : List Quad} (h : (quads.flatMap Quad.lanes).Nodup)
    (hperm : other.Perm quads) (l : Lanes) : arxRound a other l = arxRound a quads l := by
  obtain ⟨-, hpairs⟩ := List.nodup_flatMap.mp h
  have hsymm : Std.Symm (Function.onFun List.Disjoint Quad.lanes) := ⟨fun _ _ hpq => List.Disjoint.symm hpq⟩
  refine (hperm.symm.foldl_eq' (fun p hp q hq m => ?_) l).symm
  by_cases hpq : p = q
  · rw [hpq]
  · have hd : p.lanes.Disjoint q.lanes := hpairs.forall hp hq hpq
    exact ((quarterRound_actsOn a p).commute (quarterRound_actsOn a q) hd m).symm

end Sys2Proof.Machine

namespace Sys2Proof.Proofs

open Sys2Proof.Machine

/-- Settles O32: a quarter-round acts on the lanes of its quadruple only, and the quadruples of a round share no lane. -/
theorem quarterRoundsOfARoundCommute : Obligations.QuarterRoundsOfARoundCommute := by
  intro a
  exact ⟨fun _ => rfl, fun quads h => ⟨count_lanes_roundQuads (a := a) h, fun q _ => (quarterRound_actsOn a q).keeps,
    fun q _ => (quarterRound_actsOn a q).depends, fun other => arxRound_perm a (nodup_lanes_roundQuads (a := a) h)⟩⟩

/-- Settles O33: both rounds are injective, and the lane states are finitely many. -/
theorem doubleRoundIsInvertible : Obligations.DoubleRoundIsInvertible := by
  intro a
  have hfinite : Finite Lanes := finite_lanes
  have hfirst := arxRound_injective a (nodup_lanes_roundQuads (a := a) (.inl rfl))
  have hsecond := arxRound_injective a (nodup_lanes_roundQuads (a := a) (.inr rfl))
  exact Finite.injective_iff_bijective.mp (hsecond.comp hfirst)

/-- Settles O34: `streamBlock` reads `K`, `IVB` and `BLOCKINDEX`, which it keeps, and of `IVB` the lanes hold eight bytes. -/
theorem streamBlockIsAFunctionOfKeyIvIndex : Obligations.StreamBlockIsAFunctionOfKeyIvIndex := by
  intro a s
  refine ⟨streamBlock_eq a s, by rw [streamBlock_eq, streamBlock_eq], fun t hK hIndex hIV => ?_⟩
  rw [streamBlock_eq, streamBlock_eq, hK, hIndex]
  exact arxBlock_congr a s.K s.BLOCKINDEX hIV

end Sys2Proof.Proofs
end

section
/-!
PROOFS of the statements about 43_salsa20.md. First the rules they share: the IV words and the counter halves of a lane layout
as arithmetic, and the lanes a quarter-round step writes and keeps.
-/

namespace Sys2Proof.Machine

/-! ## The words of a lane layout -/

/-- The little-endian word of 20_memory.md R63 b. -/
theorem ivWord_eq_ofNat (iv : RegFile Byte 32) (i : Fin 8) :
    ivWord iv i = BitVec.ofNat 32
      ((iv.read (Fin.ofNat 32 (4 * i))).toNat + 2 ^ 8 * (iv.read (Fin.ofNat 32 (4 * i + 1))).toNat +
        2 ^ 16 * (iv.read (Fin.ofNat 32 (4 * i + 2))).toNat + 2 ^ 24 * (iv.read (Fin.ofNat 32 (4 * i + 3))).toNat) := by
  rw [← ivWord_toNat, BitVec.ofNat_toNat, BitVec.setWidth_eq]

theorem counterLow_eq_ofNat (index : BitVec 64) : counterLow index = BitVec.ofNat 32 index.toNat := rfl

theorem counterHigh_eq_ofNat (index : BitVec 64) : counterHigh index = BitVec.ofNat 32 (index.toNat / 2 ^ 32) := by
  rw [counterHigh, BitVec.extractLsb', Nat.shiftRight_eq_div_pow]

/-! ## The lanes of a Salsa20 step -/

theorem salsaStep_read_written {r : Nat} (hr : r < 32) (z x y : Fin 16) (l : Lanes) :
    (salsaStep z x y r l).read z = l.read z ^^^ (l.read x + l.read y).rotateLeft r := by
  rw [salsaStep_read, if_pos rfl, rotl_eq_rotateLeft _ _ hr]

theorem salsaStep_read_other {z i : Fin 16} (h : z ≠ i) (x y : Fin 16) (r : Nat) (l : Lanes) :
    (salsaStep z x y r l).read i = l.read i := by
  rw [salsaStep_read, if_neg h]

end Sys2Proof.Machine

namespace Sys2Proof.Proofs

open Sys2Proof.Machine

/-- Settles O28: the layout lists the lanes in this order, and its IV words and counter halves are the numbers stated. -/
theorem salsaLanesAreLaidOut : Obligations.SalsaLanesAreLaidOut := by
  intro s byte iv
  have hiv0 : iv 0 = ivWord s.IVB 0 := (ivWord_eq_ofNat s.IVB 0).symm
  have hiv1 : iv 1 = ivWord s.IVB 1 := (ivWord_eq_ofNat s.IVB 1).symm
  rw [hiv0, hiv1, ← counterLow_eq_ofNat, ← counterHigh_eq_ofNat]
  rfl

/-- Settles O30: each step writes its own lane, from lanes an earlier step wrote or no step has touched yet. -/
theorem salsaQuarterRound : Obligations.SalsaQuarterRound := by
  intro a b c d l hab hac had hbc hbd hcd z1 z2 z3 z0
  let l1 := salsaStep b a d 7 l
  let l2 := salsaStep c b a 9 l1
  let l3 := salsaStep d c b 13 l2
  let l4 := salsaStep a d c 18 l3
  have hb1 : l1.read b = z1 := salsaStep_read_written (by decide) ..
  have hb2 : l2.read b = z1 := (salsaStep_read_other hbc.symm ..).trans hb1
  have hc2 : l2.read c = z2 := by
    rw [salsaStep_read_written (by decide), hb1, salsaStep_read_other hbc, salsaStep_read_other hab.symm]
  have hc3 : l3.read c = z2 := (salsaStep_read_other hcd.symm ..).trans hc2
  have hd3 : l3.read d = z3 := by
    rw [salsaStep_read_written (by decide), hc2, hb2, salsaStep_read_other hcd, salsaStep_read_other hbd]
  have ha4 : l4.read a = z0 := by
    rw [salsaStep_read_written (by decide), hd3, hc3, salsaStep_read_other had.symm, salsaStep_read_other hac.symm,
      salsaStep_read_other hab.symm]
  have hb4 : l4.read b = z1 := (salsaStep_read_other hab ..).trans ((salsaStep_read_other hbd.symm ..).trans hb2)
  refine ⟨ha4, hb4, (salsaStep_read_other hac ..).trans hc3, (salsaStep_read_other had ..).trans hd3, ?_⟩
  intro i ha hb hc hd
  exact (quarterRound_actsOn .salsa20 ⟨a, b, c, d⟩).keeps l i (by simp [Quad.lanes, ha, hb, hc, hd])

end Sys2Proof.Proofs
end

section
/-!
PROOFS of the statements about 44_chacha20.md. First the rules for the quarter-round: the lanes a step writes and keeps, and the
four equations of half a quarter-round, which the quarter-round does twice.
-/

namespace Sys2Proof.Machine

/-! ## The lanes of a ChaCha20 step -/

section
variable {x z : Fin 16}

theorem chachaStep_read_sum (h : x ≠ z) (y : Fin 16) (r : Nat) (l : Lanes) :
    (chachaStep x y z r l).read x = l.read x + l.read y := by
  rw [chachaStep_read _ _ _ _ _ h, if_neg h.symm, if_pos rfl]

theorem chachaStep_read_rotated (h : x ≠ z) {r : Nat} (hr : r < 32) (y : Fin 16) (l : Lanes) :
    (chachaStep x y z r l).read z = (l.read z ^^^ (chachaStep x y z r l).read x).rotateLeft r := by
  rw [chachaStep_read_sum h, chachaStep_read _ _ _ _ _ h, if_pos rfl, rotl_eq_rotateLeft _ _ hr]

theorem chachaStep_read_other (h : x ≠ z) {i : Fin 16} (hx : x ≠ i) (hz : z ≠ i) (y : Fin 16) (r : Nat) (l : Lanes) :
    (chachaStep x y z r l).read i = l.read i := by
  rw [chachaStep_read _ _ _ _ _ h, if_neg hz, if_neg hx]

end

/-! ## Half a quarter-round -/

/-- `a+=b; d^=a; d=rotl(d,r); c+=d; b^=c; b=rotl(b,r')` (44_chacha20.md R196). -/
def chachaHalfQR (q : Quad) (r r' : Nat) (l : Lanes) : Lanes :=
  chachaStep q.c q.d q.b r' (chachaStep q.a q.b q.d r l)

theorem chachaQR_eq (q : Quad) (l : Lanes) : chachaQR q l = chachaHalfQR q 8 7 (chachaHalfQR q 16 12 l) := rfl

section
variable {a b c d : Fin 16}

theorem chachaHalfQR_read_a (hab : a ≠ b) (hac : a ≠ c) (had : a ≠ d) (hbc : b ≠ c) (r r' : Nat) (l : Lanes) :
    (chachaHalfQR ⟨a, b, c, d⟩ r r' l).read a = l.read a + l.read b := by
  rw [chachaHalfQR, chachaStep_read_other hbc.symm hac.symm hab.symm, chachaStep_read_sum had]

theorem chachaHalfQR_read_d (hab : a ≠ b) (hac : a ≠ c) (had : a ≠ d) (hbc : b ≠ c) (hbd : b ≠ d) (hcd : c ≠ d)
    {r : Nat} (hr : r < 32) (r' : Nat) (l : Lanes) :
    (chachaHalfQR ⟨a, b, c, d⟩ r r' l).read d =
      (l.read d ^^^ (chachaHalfQR ⟨a, b, c, d⟩ r r' l).read a).rotateLeft r := by
  rw [chachaHalfQR, chachaStep_read_other hbc.symm hcd hbd, chachaStep_read_other hbc.symm hac.symm hab.symm,
    chachaStep_read_rotated had hr]

theorem chachaHalfQR_read_c (hac : a ≠ c) (had : a ≠ d) (hbc : b ≠ c) (hbd : b ≠ d) (hcd : c ≠ d)
    (r r' : Nat) (l : Lanes) :
    (chachaHalfQR ⟨a, b, c, d⟩ r r' l).read c = l.read c + (chachaHalfQR ⟨a, b, c, d⟩ r r' l).read d := by
  rw [chachaHalfQR, chachaStep_read_sum hbc.symm, chachaStep_read_other had hac hcd.symm,
    chachaStep_read_other hbc.symm hcd hbd]

theorem chachaHalfQR_read_b (hab : a ≠ b) (had : a ≠ d) (hbc : b ≠ c) (hbd : b ≠ d)
    (r : Nat) {r' : Nat} (hr' : r' < 32) (l : Lanes) :
    (chachaHalfQR ⟨a, b, c, d⟩ r r' l).read b =
      (l.read b ^^^ (chachaHalfQR ⟨a, b, c, d⟩ r r' l).read c).rotateLeft r' := by
  rw [chachaHalfQR, chachaStep_read_rotated hbc.symm hr', chachaStep_read_other had hab hbd.symm]

end

end Sys2Proof.Machine

namespace Sys2Proof.Proofs

open Sys2Proof.Machine

/-- Settles O29: the layout lists the lanes in this order, and its counter halves and IV words are the numbers stated. -/
theorem chachaLanesAreLaidOut : Obligations.ChachaLanesAreLaidOut := by
  intro s byte iv
  have hiv0 : iv 0 = ivWord s.IVB 0 := (ivWord_eq_ofNat s.IVB 0).symm
  have hiv1 : iv 1 = ivWord s.IVB 1 := (ivWord_eq_ofNat s.IVB 1).symm
  rw [hiv0, hiv1, ← counterLow_eq_ofNat, ← counterHigh_eq_ofNat]
  rfl

/-- Settles O31: the four equations of half a quarter-round, with the counts 16 and 12, then with 8 and 7. -/
theorem chachaQuarterRound : Obligations.ChachaQuarterRound := by
  intro a b c d l hab hac had hbc hbd hcd a1 d1 c1 b1 a2 d2 c2 b2
  let m := chachaHalfQR ⟨a, b, c, d⟩ 16 12 l
  have ha1 : m.read a = a1 := chachaHalfQR_read_a hab hac had hbc ..
  have hd1 : m.read d = d1 := by rw [chachaHalfQR_read_d hab hac had hbc hbd hcd (by decide), ha1]
  have hc1 : m.read c = c1 := by rw [chachaHalfQR_read_c hac had hbc hbd hcd, hd1]
  have hb1 : m.read b = b1 := by rw [chachaHalfQR_read_b hab had hbc hbd _ (by decide), hc1]
  let n := chachaHalfQR ⟨a, b, c, d⟩ 8 7 m
  have ha2 : n.read a = a2 := by rw [chachaHalfQR_read_a hab hac had hbc, ha1, hb1]
  have hd2 : n.read d = d2 := by rw [chachaHalfQR_read_d hab hac had hbc hbd hcd (by decide), ha2, hd1]
  have hc2 : n.read c = c2 := by rw [chachaHalfQR_read_c hac had hbc hbd hcd, hd2, hc1]
  have hb2 : n.read b = b2 := by rw [chachaHalfQR_read_b hab had hbc hbd _ (by decide), hc2, hb1]
  rw [chachaQR_eq]
  refine ⟨ha2, hb2, hc2, hd2, fun i ha hb hc hd => ?_⟩
  exact (quarterRound_actsOn .chacha20 ⟨a, b, c, d⟩).keeps l i (by simp [Quad.lanes, ha, hb, hc, hd])

end Sys2Proof.Proofs
end

section
/-!
PROOFS of the statements about 45_hc256.md. First the rules they share: the six functions and the table indices as arithmetic, the
step on either half of the cursor, the cursor after any number of steps, and the words loaded into the scratch memory.
-/

namespace Sys2Proof.Machine

/-! ## Shifts and table indices as arithmetic -/

theorem shr_eq_ofNat (x : Word) (n : Nat) : shr x n = BitVec.ofNat 32 (x.toNat / 2 ^ n) := by
  apply BitVec.eq_of_toNat_eq
  rw [shr, BitVec.toNat_ushiftRight, Nat.shiftRight_eq_div_pow, BitVec.toNat_ofNat,
    Nat.mod_eq_of_lt (Nat.lt_of_le_of_lt (Nat.div_le_self ..) x.isLt)]

/-- A mask of low ones is a remainder (20_memory.md R61). -/
theorem toNat_and_mask (x : Word) {n : Nat} (h : n < 32) :
    (x &&& BitVec.ofNat 32 (2 ^ n - 1)).toNat = x.toNat % 2 ^ n := by
  have hlt : 2 ^ n - 1 < 2 ^ 32 := Nat.lt_of_le_of_lt (Nat.sub_le ..) (Nat.pow_lt_pow_right (by decide) h)
  rw [BitVec.toNat_and, BitVec.toNat_ofNat, Nat.mod_eq_of_lt hlt, Nat.and_two_pow_sub_one_eq_mod]

theorem tableIndex_eq_ofNat (x : Word) : tableIndex x = Fin.ofNat 1024 (x.toNat % 1024) :=
  congrArg (Fin.ofNat 1024) (toNat_and_mask x (n := 10) (by decide))

theorem quarterIndex_eq_ofNat (k : Nat) (x : Word) :
    quarterIndex k x = Fin.ofNat 1024 (256 * k + x.toNat / 2 ^ (8 * k) % 256) := by
  have hbyte : (shr x (8 * k) &&& 0xff#32).toNat = (shr x (8 * k)).toNat % 256 := toNat_and_mask _ (n := 8) (by decide)
  rw [quarterIndex, hbyte, shr, BitVec.toNat_ushiftRight, Nat.shiftRight_eq_div_pow]

/-! ## The step on either half of the cursor -/

theorem cursorIndex_eq_ofNat (t : TableState) : cursorIndex t = Fin.ofNat 1024 (t.IDX.toNat % 1024) :=
  Fin.ext (Nat.mod_mod ..).symm

/-- The masked difference of 20_memory.md R61. -/
theorem cursorIndex_sub_ofNat (t : TableState) {d : Nat} (h : d < 1024) :
    cursorIndex t - Fin.ofNat 1024 d = Fin.ofNat 1024 ((t.IDX.toNat % 1024 + (1024 - d)) % 1024) := by
  apply Fin.ext
  simp only [cursorIndex, Fin.sub_def, Fin.val_ofNat]
  omega

/-- The word an output reads by is not the one just written. -/
theorem ne_sub_twelve (j : Fin 1024) : j ≠ j - 12 := fun h => absurd (sub_eq_self.mp h.symm) (by decide)

/-- All that a step below 1024 does (R216). -/
theorem hcStep_of_lt {t : TableState} (h : t.IDX.toNat < 1024) :
    hcStep t =
      (h1 t (t.P.read (cursorIndex t - 12)) ^^^ newP t (cursorIndex t),
        { P := t.P.write (cursorIndex t) (newP t (cursorIndex t)), Q := t.Q, IDX := t.IDX + 1 }) := by
  have hne := ne_sub_twelve (cursorIndex t)
  simp only [hcStep, if_pos h, pStep, RegFile.read_write_same, RegFile.read_write_other _ _ hne]
  rfl

/-- All that a step from 1024 on does (R217). -/
theorem hcStep_of_ge {t : TableState} (h : 1024 ≤ t.IDX.toNat) :
    hcStep t =
      (h2 t (t.Q.read (cursorIndex t - 12)) ^^^ newQ t (cursorIndex t),
        { P := t.P, Q := t.Q.write (cursorIndex t) (newQ t (cursorIndex t)), IDX := t.IDX + 1 }) := by
  have hne := ne_sub_twelve (cursorIndex t)
  simp only [hcStep, if_neg (Nat.not_lt.mpr h), qStep, RegFile.read_write_same, RegFile.read_write_other _ _ hne]
  rfl

/-! ## The mirror image of a step -/

/-- The tables exchanged and the cursor half a cycle on (R217). -/
def mirror (t : TableState) : TableState := { P := t.Q, Q := t.P, IDX := t.IDX + 1024 }

theorem mirror_IDX_lt (t : TableState) : (mirror t).IDX.toNat < 1024 ↔ 1024 ≤ t.IDX.toNat := by
  have hlt := t.IDX.isLt
  have hadd : (mirror t).IDX.toNat = (t.IDX.toNat + 1024) % 2048 := BitVec.toNat_add ..
  omega

theorem cursorIndex_mirror (t : TableState) : cursorIndex (mirror t) = cursorIndex t := by
  have hadd : (mirror t).IDX.toNat = (t.IDX.toNat + 1024) % 2048 := BitVec.toNat_add ..
  apply Fin.ext
  simp only [cursorIndex, Fin.val_ofNat, hadd]
  omega

theorem advanceCursor_mirror (t : TableState) : advanceCursor (mirror t) = mirror (advanceCursor t) := by
  have hidx : t.IDX + 1024 + 1 = t.IDX + 1 + 1024 := by rw [BitVec.add_assoc, BitVec.add_assoc]; rfl
  simp only [advanceCursor, mirror, hidx]

theorem pStep_mirror (t : TableState) : pStep (mirror t) = ((qStep t).1, mirror (qStep t).2) := by
  rw [pStep, cursorIndex_mirror]
  rfl

theorem qStep_mirror (t : TableState) : qStep (mirror t) = ((pStep t).1, mirror (pStep t).2) := by
  rw [qStep, cursorIndex_mirror]
  rfl

theorem hcStep_mirror (t : TableState) : hcStep (mirror t) = ((hcStep t).1, mirror (hcStep t).2) := by
  by_cases h : t.IDX.toNat < 1024
  · have hm : ¬ (mirror t).IDX.toNat < 1024 := by rw [mirror_IDX_lt]; omega
    simp only [hcStep, if_pos h, if_neg hm, qStep_mirror, advanceCursor_mirror]
  · have hm : (mirror t).IDX.toNat < 1024 := (mirror_IDX_lt t).mpr (Nat.le_of_not_lt h)
    simp only [hcStep, if_neg h, if_pos hm, pStep_mirror, advanceCursor_mirror]

/-! ## The cursor -/

theorem hcStep_IDX (t : TableState) : (hcStep t).2.IDX = t.IDX + 1 := by
  by_cases h : t.IDX.toNat < 1024
  · rw [hcStep_of_lt h]
  · rw [hcStep_of_ge (Nat.le_of_not_lt h)]

theorem iterate_hcAdvance_IDX (k : Nat) (t : TableState) : (hcAdvance^[k] t).IDX = t.IDX + BitVec.ofNat 11 k := by
  induction k with
  | zero => exact (BitVec.add_zero _).symm
  | succ k ih =>
    rw [Function.iterate_succ_apply', hcAdvance, hcStep_IDX, ih, BitVec.add_assoc, BitVec.ofNat_add]
    rfl

/-! ## The words loaded into the scratch memory -/

section
variable (k : RegFile Word 8) (iv : RegFile Byte 32) (w : RegFile Word 2660) (i : Fin 8)

theorem hcLoad_read_key : (hcLoad k iv w).read (Fin.ofNat 2660 i) = k.read i := by
  have hval : (Fin.ofNat 2660 i).val = i := Nat.mod_eq_of_lt (by omega)
  simp only [hcLoad, RegFile.read_ofFn, hval, i.isLt, dite_true]

theorem hcLoad_read_iv : (hcLoad k iv w).read (Fin.ofNat 2660 (8 + i)) = ivWord iv i := by
  have hval : (Fin.ofNat 2660 (8 + i.val)).val = 8 + i := Nat.mod_eq_of_lt (by omega)
  have hge : ¬ 8 + i.val < 8 := by omega
  simp only [hcLoad, RegFile.read_ofFn, hval, hge, Nat.add_sub_cancel_left, i.isLt, dite_true, dite_false]

end

end Sys2Proof.Machine

namespace Sys2Proof.Proofs

open Sys2Proof.Machine
open Sys2Proof.Safety

/-- Settles O36: the step on each half, with the differences of indices as masked sums. -/
theorem hcStepUpdatesOneWord : Obligations.HcStepUpdatesOneWord := by
  intro t j at' here
  have hhere : Fin.ofNat 1024 j = cursorIndex t := (cursorIndex_eq_ofNat t).symm
  have hback (d : Nat) (hd : d < 1024) :
      Fin.ofNat 1024 ((j + (1024 - d)) % 1024) = cursorIndex t - Fin.ofNat 1024 d := (cursorIndex_sub_ofNat t hd).symm
  have h3 : Fin.ofNat 1024 ((j + 1021) % 1024) = cursorIndex t - 3 := hback 3 (by decide)
  have h10 : Fin.ofNat 1024 ((j + 1014) % 1024) = cursorIndex t - 10 := hback 10 (by decide)
  have h12 : Fin.ofNat 1024 ((j + 1012) % 1024) = cursorIndex t - 12 := hback 12 (by decide)
  have h1023 : Fin.ofNat 1024 ((j + 1) % 1024) = cursorIndex t - 1023 := hback 1023 (by decide)
  refine ⟨?_, ?_, ?_⟩
  · rw [hcStep_IDX, BitVec.toNat_add]
    rfl
  · intro h new
    have hnew : new = newP t (cursorIndex t) := by simp only [new, at', newP, hhere, h3, h10, h1023]
    rw [hcStep_of_lt h, show here = cursorIndex t from hhere, hnew]
    exact ⟨RegFile.read_write_same .., fun i hi => RegFile.read_write_other _ _ hi.symm, rfl, by simp only [at', h12]⟩
  · intro h new
    have hnew : new = newQ t (cursorIndex t) := by simp only [new, at', newQ, hhere, h3, h10, h1023]
    rw [hcStep_of_ge h, show here = cursorIndex t from hhere, hnew]
    exact ⟨RegFile.read_write_same .., fun i hi => RegFile.read_write_other _ _ hi.symm, rfl, by simp only [at', h12]⟩

/-- Settles O37: half a cycle moves the cursor to the other half and keeps its place there. -/
theorem qStepMirrorsPStep : Obligations.QStepMirrorsPStep := hcStep_mirror

/-- Settles O39: the recurrence reads and keeps the words below its index, and the words loaded lie below the first. -/
theorem expansionMeetsTheRecurrence : Obligations.ExpansionMeetsTheRecurrence := by
  intro s w byte
  have hval : ∀ i, i < 2660 → (Fin.ofNat 2660 i).val = i := fun i h => Nat.mod_eq_of_lt h
  have hw : ∀ i, w i = (hcExtend 2644 16 (hcLoad s.K s.IVB s.W)).read (Fin.ofNat 2660 i) := fun i => by
    simp only [w, hcExpand]
  have hloaded : ∀ i, i < 16 → w i = (hcLoad s.K s.IVB s.W).read (Fin.ofNat 2660 i) := fun i h => by
    rw [hw, hcExtend_read_below 2644 16 _ (by decide) _ (by rw [hval i (by omega)]; exact h)]
  refine ⟨fun i => ⟨?_, ?_⟩, fun i h16 hi => ?_, by rw [hcExpand]⟩
  · rw [hloaded i (by omega), hcLoad_read_key]
  · rw [hloaded (8 + i) (by omega), hcLoad_read_iv]
    exact ivWord_toNat s.IVB i
  · have hrec := hcExtend_recurrence 2644 16 (hcLoad s.K s.IVB s.W) (by decide) (by decide) (Fin.ofNat 2660 i)
      (by rw [hval i hi]; exact h16) (by rw [hval i hi]; exact hi)
    rw [hval i hi, hcRecurrence] at hrec
    simp only [hw]
    exact hrec

/-- Settles O40: the tables and the wiped memory are read back. -/
theorem seedingCopiesAndWipes : Obligations.SeedingCopiesAndWipes := by
  intro s
  have hidx (i : Nat) (h : i < 2660) : Fin.ofNat 2660 i = ⟨i, h⟩ := Fin.ext (Nat.mod_eq_of_lt h)
  refine ⟨fun i => ⟨?_, ?_⟩, fun i => RegFile.read_fill 0 i, rfl⟩
  · rw [hidx (512 + i) (by omega)]
    exact RegFile.read_ofFn _ i
  · rw [hidx (1536 + i) (by omega)]
    exact RegFile.read_ofFn _ i

/-- Settles O41: the tables are those of the key and IV, and 4096 steps are two rounds of the cursor. -/
theorem hcInitDependsOnKeyAndIvAlone : Obligations.HcInitDependsOnKeyAndIvAlone := by
  intro s t hK hIV
  have htab : ∀ u : State, (hc256Init u).tab = hcTables u.K u.IVB 0 := fun u => by rw [hc256Init_eq]
  refine ⟨by rw [htab, htab, hK, hIV], ?_, by rw [hc256Init_eq]⟩
  rw [htab, hcTables_zero, iterate_hcAdvance_IDX]
  rfl

/-- Settles O42: one word and one place of the cursor a step. -/
theorem cursorCountsWordsModulo2048 : Obligations.CursorCountsWordsModulo2048 := by
  intro k t
  rw [hcWords_eq]
  refine ⟨by rw [List.length_map, List.length_range], ?_⟩
  rw [iterate_hcAdvance_IDX, BitVec.toNat_add, BitVec.toNat_ofNat, Nat.add_mod_mod]

/-- Settles O51: an engine that is not ready is alike to itself, whatever the two block sizes. -/
theorem responsesDoNotDependOnHcBlockWords : Obligations.ResponsesDoNotDependOnHcBlockWords := by
  intro n m is s hn hm hs
  obtain ⟨out, hrsp, hrsp', -⟩ := (Alike.of_notReady (n := n) (m := m) hs hs rfl).runCommands hn hm is
  exact hrsp.trans hrsp'.symm

/-- Settles O38: rotations and shifts as the library's, masks as remainders. -/
theorem sixFunctionsOfHc256 : Obligations.SixFunctionsOfHc256 := by
  intro t x y at' byte
  have hbyte : ∀ k, quarterIndex k x = Fin.ofNat 1024 (256 * k + byte k) := fun k => quarterIndex_eq_ofNat k x
  refine ⟨?_, ?_, ?_, ?_, ?_, ?_⟩
  · simp (disch := decide) only [f1, rotr_eq_rotateRight, shr_eq_ofNat]
  · simp (disch := decide) only [f2, rotr_eq_rotateRight, shr_eq_ofNat]
  · simp (disch := decide) only [g1, at', rotr_eq_rotateRight, tableIndex_eq_ofNat]
  · simp (disch := decide) only [g2, at', rotr_eq_rotateRight, tableIndex_eq_ofNat]
  · rw [h1, hbyte, hbyte, hbyte, hbyte, Nat.mul_zero, Nat.zero_add]
  · rw [h2, hbyte, hbyte, hbyte, hbyte, Nat.mul_zero, Nat.zero_add]

end Sys2Proof.Proofs
end

section
/-!
PROOFS of the statements about 60_exceptions.md. First the rule: a command that answers one byte, not `OK`, does nothing else.
-/

namespace Sys2Proof.Machine

/-! ## Commands that fail -/

/-- A command whose whole response is a status other than `OK` leaves nothing but that byte (60_exceptions.md R250): its every
effect is announced by `OK`. -/
theorem CommandOutcome.eq_rspWrite_of_status {n : Nat} {i : Instr} {s t : State} {status : Byte}
    (h : CommandOutcome n s i t) (hrsp : t.rsp = s.rsp ++ [status]) (hstatus : status ≠ statusCode .ok) :
    t = rspWrite [status] s := by
  have hok {u : State} {payload : List Byte} (hu : u.rsp = s.rsp)
      (hanswer : (rspWrite (statusCode .ok :: payload) u).rsp = s.rsp ++ [status]) : False := by
    rw [rspWrite_rsp, hu] at hanswer
    exact hstatus (List.head_eq_of_cons_eq (List.append_cancel_left hanswer)).symm
  cases h with
  | failed i e => exact congrArg (rspWrite · s) (List.append_cancel_left hrsp)
  | constructed code alg => exact (hok rfl hrsp).elim
  | initialized key iv pos c k v alg start => exact (hok (positioned_rsp ..) hrsp).elim
  | repositioned pos c ready alg start => exact (hok (positioned_rsp ..) hrsp).elim
  | applied data c ready alg => exact (hok (iterate_advanceByte_rsp ..) hrsp).elim
  | reported i out => exact congrArg (rspWrite · s) (List.append_cancel_left hrsp)

end Sys2Proof.Machine

namespace Sys2Proof.Proofs

open Sys2Proof.Machine

/-- Settles O16: an error has no payload, and what a command can do beyond its response it does with `OK`. -/
theorem failingCommandChangesNothing : Obligations.FailingCommandChangesNothing := by
  intro i s t status payload hexec hrsp hstatus
  obtain ⟨t', status', payload', hexec', hrsp', -, -, hpayload, -⟩ := everyCommandAnswersOnce i s
  obtain rfl : t = t' := Host.Outcome.next.inj (hexec.symm.trans hexec')
  obtain ⟨rfl, rfl⟩ := List.cons_eq_cons.mp (List.append_cancel_left (hrsp.symm.trans hrsp'))
  rw [hpayload hstatus] at hrsp
  exact (exec_outcome hexec).eq_rspWrite_of_status hrsp hstatus

end Sys2Proof.Proofs
end

section
/-!
PROOFS of the statements about 70_reset_and_hazards.md. First the rules: when a step has no next state, and that none is
refused.
-/

namespace Sys2Proof.Machine

/-! ## Steps that are not enabled -/

/-- No step is enabled exactly when no reset is asserted and the core is halted or has no whole command to read
(70_reset_and_hazards.md R284). -/
theorem exists_step_eq_fault {s : State} :
    (∃ r, step s = .fault r) ↔ s.RESET = false ∧ (s.HALTED = true ∨ decode s.cmd = .incomplete) := by
  constructor
  · rintro ⟨r, h⟩
    obtain ⟨hR, ⟨hH, -⟩ | ⟨-, hd, -⟩⟩ := step_fault_cases h
    · exact ⟨hR, .inl hH⟩
    · exact ⟨hR, .inr hd⟩
  · rintro ⟨hR, h⟩
    cases hH : s.HALTED with
    | true => exact ⟨_, step_halted hR hH⟩
    | false => exact ⟨_, step_incomplete hR hH (h.resolve_left (by simp [hH]))⟩

/-- Every command has a meaning, so `step` refuses nothing. -/
theorem step_ne_refused (s : State) (r : Refusal) : step s ≠ .refused r := by
  cases hf : fetch s with
  | command i t => simp [step, hf, exec_eq_command]
  | event t => simp [step, hf]
  | idle reason => simp [step, hf]

/-- A halted core takes no step but a reset (30_encoding.md R104). -/
theorem reset_of_halted_of_step {s t : State} (hH : s.HALTED = true) (h : step s = .next t) : s.RESET = true :=
  eq_true_of_ne_false fun hR => by simp [step_halted hR hH] at h

end Sys2Proof.Machine

namespace Sys2Proof.Proofs

open Sys2Proof.Machine

/-- Settles O9: the step after `hostReset` is the reset event, whose state has an empty stream; a halted core takes no other. -/
theorem resetClearsEverything : Obligations.ResetClearsEverything :=
  ⟨fun _ => step_reset rfl, step_incomplete rfl rfl rfl, fun _ _ hH h _ => reset_of_halted_of_step hH h⟩

/-- Settles O11: a stream without a whole command, the empty one among them, is one shorter than its frame. -/
theorem runEndsExactlyWhenNoStepIsEnabled : Obligations.RunEndsExactlyWhenNoStepIsEnabled := by
  refine ⟨fun s => ?_, step_ne_refused⟩
  have hempty : s.cmd = [] → decode s.cmd = .incomplete := fun h => by rw [h]; rfl
  rw [exists_step_eq_fault, ← decode_eq_incomplete, or_iff_right_of_imp hempty]

end Sys2Proof.Proofs
end
